-- ==== Sys2Proof/Word.lean ====
section
/-! DEFINITION. The widths of the machine's values (spec/00_scope.md R6, R9, R10): every value is an unsigned
bit vector of a stated width, and bit 0 is the least significant. -/

namespace Sys2Proof

/-- A byte: a `V` register, a timer, a cell of `mem` or `fb`, the immediate `kk` (R10). -/
abbrev Byte := BitVec 8

/-- A 16-bit word: `I`, `pc`, a return address, the key latch, an instruction word `w` (R10). -/
abbrev Word := BitVec 16

/-- A 4-bit instruction field: the selectors `x` and `y`, the number `n` (R92). -/
abbrev Nib := BitVec 4

/-- The 12-bit address immediate `nnn` (R92). -/
abbrev Addr := BitVec 12

end Sys2Proof
end

