-- ==== Sys2Proof/Syntax.lean ====
section
/-! DEFINITION. The instructions: one constructor per row of spec/opcode_table.json, in the table's order
(spec/30_encoding.md R96, R102). A constructor carries every field the row's pattern leaves free, also the field the
row's rule ignores (`n` of SE Vx,Vy and SNE Vx,Vy, `y` of SHR and SHL), so that no bit of a word is lost. -/

namespace Sys2Proof

/-- The instruction set (R96). `x`, `y` select registers, `kk` is a byte, `n` a nibble, `nnn` a 12-bit address. -/
inductive Instr where
  /-- `00E0` CLS, R200. -/
  | cls
  /-- `00EE` RET, R122. -/
  | ret
  /-- `0nnn` SYS nnn, R121; `nnn` is neither `0E0` nor `0EE` (see `Instr.wellFormed`). -/
  | sys (nnn : Addr)
  /-- `1nnn` JP nnn, R123. -/
  | jp (nnn : Addr)
  /-- `2nnn` CALL nnn, R124. -/
  | call (nnn : Addr)
  /-- `3xkk` SE Vx,kk, R125. -/
  | seVxKk (x : Nib) (kk : Byte)
  /-- `4xkk` SNE Vx,kk, R126. -/
  | sneVxKk (x : Nib) (kk : Byte)
  /-- `5xyn` SE Vx,Vy, R127; `n` is ignored, `n = 0` is the canonical encoding (R97). -/
  | seVxVy (x y n : Nib)
  /-- `6xkk` LD Vx,kk, R152. -/
  | ldVxKk (x : Nib) (kk : Byte)
  /-- `7xkk` ADD Vx,kk, R153. -/
  | addVxKk (x : Nib) (kk : Byte)
  /-- `8xy0` LD Vx,Vy, R154. -/
  | ldVxVy (x y : Nib)
  /-- `8xy1` OR Vx,Vy, R155. -/
  | orVxVy (x y : Nib)
  /-- `8xy2` AND Vx,Vy, R156. -/
  | andVxVy (x y : Nib)
  /-- `8xy3` XOR Vx,Vy, R157. -/
  | xorVxVy (x y : Nib)
  /-- `8xy4` ADD Vx,Vy, R158. -/
  | addVxVy (x y : Nib)
  /-- `8xy5` SUB Vx,Vy, R159. -/
  | subVxVy (x y : Nib)
  /-- `8xy6` SHR Vx, R160; `y` is used only under `SHIFT_SRC = Vy`. -/
  | shrVx (x y : Nib)
  /-- `8xy7` SUBN Vx,Vy, R161. -/
  | subnVxVy (x y : Nib)
  /-- `8xyE` SHL Vx, R162; `y` is used only under `SHIFT_SRC = Vy`. -/
  | shlVx (x y : Nib)
  /-- `9xyn` SNE Vx,Vy, R128; `n` is ignored, `n = 0` is the canonical encoding (R97). -/
  | sneVxVy (x y n : Nib)
  /-- `Annn` LD I,nnn, R181. -/
  | ldINnn (nnn : Addr)
  /-- `Bnnn` JP V0,nnn, R131. -/
  | jpV0Nnn (nnn : Addr)
  /-- `Cxkk` RND Vx,kk, R163. -/
  | rndVxKk (x : Nib) (kk : Byte)
  /-- `Dxyn` DRW Vx,Vy,n, R208. -/
  | drwVxVyN (x y n : Nib)
  /-- `Ex9E` SKP Vx, R220. -/
  | skpVx (x : Nib)
  /-- `ExA1` SKNP Vx, R221. -/
  | sknpVx (x : Nib)
  /-- `Fx07` LD Vx,DT, R222. -/
  | ldVxDt (x : Nib)
  /-- `Fx0A` LD Vx,K, R224. -/
  | ldVxK (x : Nib)
  /-- `Fx15` LD DT,Vx, R225. -/
  | ldDtVx (x : Nib)
  /-- `Fx18` LD ST,Vx, R226. -/
  | ldStVx (x : Nib)
  /-- `Fx1E` ADD I,Vx, R182. -/
  | addIVx (x : Nib)
  /-- `Fx29` LD F,Vx, R183. -/
  | ldFVx (x : Nib)
  /-- `Fx33` LD B,Vx, R184. -/
  | ldBVx (x : Nib)
  /-- `Fx55` LD [I],Vx, R186. -/
  | ldMemVx (x : Nib)
  /-- `Fx65` LD Vx,[I], R187. -/
  | ldVxMem (x : Nib)
  deriving DecidableEq, Repr

end Sys2Proof
end

