-- ==== Sys2Proof/Decode.lean ====
section
/-! DEFINITION. From words to instructions and back (spec/30_encoding.md R90 to R98): the fields, the decoder, the
encoder, the byte order of a word in memory, and the opcode map as data. -/

namespace Sys2Proof

/-! ### Fields (R92) -/

/-- `op`, bits 15:12, "the high nibble". -/
def fieldOp (w : Word) : Nib := w.extractLsb' 12 4

/-- `x`, bits 11:8. -/
def fieldX (w : Word) : Nib := w.extractLsb' 8 4

/-- `y`, bits 7:4. -/
def fieldY (w : Word) : Nib := w.extractLsb' 4 4

/-- `n`, bits 3:0. -/
def fieldN (w : Word) : Nib := w.extractLsb' 0 4

/-- `kk`, bits 7:0. -/
def fieldKk (w : Word) : Byte := w.extractLsb' 0 8

/-- `nnn`, bits 11:0. -/
def fieldNnn (w : Word) : Addr := w.extractLsb' 0 12

/-! ### Byte order (R61): the byte at the lower address is bits 15:8. -/

/-- Bits 15:8 of a word, the byte at the lower address. -/
def wordHi (w : Word) : Byte := w.extractLsb' 8 8

/-- Bits 7:0 of a word, the byte at the higher address. -/
def wordLo (w : Word) : Byte := w.extractLsb' 0 8

/-- The big-endian word of two bytes (R11, `MemRead(addr, 2)`). -/
def wordOfBytes (hi lo : Byte) : Word := hi ++ lo

/-! ### The decoder (R95 to R98) -/

/-- Why the decoder gives no instruction of the table. -/
inductive DecodeRefusal where
  /-- Fewer than two bytes: no instruction is shorter (R91). The engine's fetch always has two, so only `decodeBytes`
  on a short list answers this. -/
  | truncated
  /-- Row 36 of R96: the word matches none of the 35 rows. It is no instruction of the table; the engine runs it as the
  no-op of R121 (`Machine.execUnknown`). -/
  | unlisted (w : Word)
  deriving DecidableEq, Repr

/-- Group 8, keyed by `n` (R95; rows 11 to 19 of R96). -/
def decodeGroup8 (w : Word) : Except DecodeRefusal Instr :=
  match fieldN w with
  | 0x0#4 => .ok (.ldVxVy (fieldX w) (fieldY w))
  | 0x1#4 => .ok (.orVxVy (fieldX w) (fieldY w))
  | 0x2#4 => .ok (.andVxVy (fieldX w) (fieldY w))
  | 0x3#4 => .ok (.xorVxVy (fieldX w) (fieldY w))
  | 0x4#4 => .ok (.addVxVy (fieldX w) (fieldY w))
  | 0x5#4 => .ok (.subVxVy (fieldX w) (fieldY w))
  | 0x6#4 => .ok (.shrVx (fieldX w) (fieldY w))
  | 0x7#4 => .ok (.subnVxVy (fieldX w) (fieldY w))
  | 0xE#4 => .ok (.shlVx (fieldX w) (fieldY w))
  | _ => .error (.unlisted w)

/-- Group E, keyed by `kk` (R95; rows 25 and 26 of R96). -/
def decodeGroupE (w : Word) : Except DecodeRefusal Instr :=
  match fieldKk w with
  | 0x9E#8 => .ok (.skpVx (fieldX w))
  | 0xA1#8 => .ok (.sknpVx (fieldX w))
  | _ => .error (.unlisted w)

/-- Group F, keyed by `kk` (R95; rows 27 to 35 of R96). -/
def decodeGroupF (w : Word) : Except DecodeRefusal Instr :=
  match fieldKk w with
  | 0x07#8 => .ok (.ldVxDt (fieldX w))
  | 0x0A#8 => .ok (.ldVxK (fieldX w))
  | 0x15#8 => .ok (.ldDtVx (fieldX w))
  | 0x18#8 => .ok (.ldStVx (fieldX w))
  | 0x1E#8 => .ok (.addIVx (fieldX w))
  | 0x29#8 => .ok (.ldFVx (fieldX w))
  | 0x33#8 => .ok (.ldBVx (fieldX w))
  | 0x55#8 => .ok (.ldMemVx (fieldX w))
  | 0x65#8 => .ok (.ldVxMem (fieldX w))
  | _ => .error (.unlisted w)

/-- Group 0, keyed by the whole word, that is by `nnn` (R95, decision D2; rows 1 to 3 of R96). -/
def decodeGroup0 (w : Word) : Instr :=
  match fieldNnn w with
  | 0x0E0#12 => .cls
  | 0x0EE#12 => .ret
  | _ => .sys (fieldNnn w)

/-- `Decode(w)`, R95: "Dispatch on the high nibble, with secondary dispatch on `n` ... or `kk`". Groups 5 and 9 decode on
`op` alone (decision D3). -/
def decodeWord (w : Word) : Except DecodeRefusal Instr :=
  match fieldOp w with
  | 0x0#4 => .ok (decodeGroup0 w)
  | 0x1#4 => .ok (.jp (fieldNnn w))
  | 0x2#4 => .ok (.call (fieldNnn w))
  | 0x3#4 => .ok (.seVxKk (fieldX w) (fieldKk w))
  | 0x4#4 => .ok (.sneVxKk (fieldX w) (fieldKk w))
  | 0x5#4 => .ok (.seVxVy (fieldX w) (fieldY w) (fieldN w))
  | 0x6#4 => .ok (.ldVxKk (fieldX w) (fieldKk w))
  | 0x7#4 => .ok (.addVxKk (fieldX w) (fieldKk w))
  | 0x8#4 => decodeGroup8 w
  | 0x9#4 => .ok (.sneVxVy (fieldX w) (fieldY w) (fieldN w))
  | 0xA#4 => .ok (.ldINnn (fieldNnn w))
  | 0xB#4 => .ok (.jpV0Nnn (fieldNnn w))
  | 0xC#4 => .ok (.rndVxKk (fieldX w) (fieldKk w))
  | 0xD#4 => .ok (.drwVxVyN (fieldX w) (fieldY w) (fieldN w))
  | 0xE#4 => decodeGroupE w
  | _ => decodeGroupF w

/-- The decoder on bytes in address order: two bytes make one instruction (R61, R91); the rest of the list is returned. -/
def decodeBytes : List Byte → Except DecodeRefusal (Instr × List Byte)
  | hi :: lo :: rest =>
    match decodeWord (wordOfBytes hi lo) with
    | .ok i => .ok (i, rest)
    | .error r => .error r
  | _ => .error .truncated

/-- The host's question on an opcode-table row: the instruction read from a word whose bits are `w`, bit 0 the least
significant, laid out as the hardware stores it (R61). Every instruction is one word, so bits above 16 do not exist. -/
def decodeTableWord (nbits w : Nat) : Option Instr :=
  match decodeBytes [wordHi (BitVec.ofNat 16 (w % 2 ^ nbits)), wordLo (BitVec.ofNat 16 (w % 2 ^ nbits))] with
  | .ok (i, _) => some i
  | .error _ => none

/-! ### The encoder (the patterns of R96) -/

/-- The word of an instruction, the row's pattern with its fields filled in (R93, R96). -/
def encode : Instr → Word
  | .cls => 0x00E0#16
  | .ret => 0x00EE#16
  | .sys nnn => 0x0#4 ++ nnn
  | .jp nnn => 0x1#4 ++ nnn
  | .call nnn => 0x2#4 ++ nnn
  | .seVxKk x kk => 0x3#4 ++ x ++ kk
  | .sneVxKk x kk => 0x4#4 ++ x ++ kk
  | .seVxVy x y n => 0x5#4 ++ x ++ y ++ n
  | .ldVxKk x kk => 0x6#4 ++ x ++ kk
  | .addVxKk x kk => 0x7#4 ++ x ++ kk
  | .ldVxVy x y => 0x8#4 ++ x ++ y ++ 0x0#4
  | .orVxVy x y => 0x8#4 ++ x ++ y ++ 0x1#4
  | .andVxVy x y => 0x8#4 ++ x ++ y ++ 0x2#4
  | .xorVxVy x y => 0x8#4 ++ x ++ y ++ 0x3#4
  | .addVxVy x y => 0x8#4 ++ x ++ y ++ 0x4#4
  | .subVxVy x y => 0x8#4 ++ x ++ y ++ 0x5#4
  | .shrVx x y => 0x8#4 ++ x ++ y ++ 0x6#4
  | .subnVxVy x y => 0x8#4 ++ x ++ y ++ 0x7#4
  | .shlVx x y => 0x8#4 ++ x ++ y ++ 0xE#4
  | .sneVxVy x y n => 0x9#4 ++ x ++ y ++ n
  | .ldINnn nnn => 0xA#4 ++ nnn
  | .jpV0Nnn nnn => 0xB#4 ++ nnn
  | .rndVxKk x kk => 0xC#4 ++ x ++ kk
  | .drwVxVyN x y n => 0xD#4 ++ x ++ y ++ n
  | .skpVx x => 0xE#4 ++ x ++ 0x9E#8
  | .sknpVx x => 0xE#4 ++ x ++ 0xA1#8
  | .ldVxDt x => 0xF#4 ++ x ++ 0x07#8
  | .ldVxK x => 0xF#4 ++ x ++ 0x0A#8
  | .ldDtVx x => 0xF#4 ++ x ++ 0x15#8
  | .ldStVx x => 0xF#4 ++ x ++ 0x18#8
  | .addIVx x => 0xF#4 ++ x ++ 0x1E#8
  | .ldFVx x => 0xF#4 ++ x ++ 0x29#8
  | .ldBVx x => 0xF#4 ++ x ++ 0x33#8
  | .ldMemVx x => 0xF#4 ++ x ++ 0x55#8
  | .ldVxMem x => 0xF#4 ++ x ++ 0x65#8

/-- The two bytes of an instruction in address order (R61). -/
def encodeBytes (i : Instr) : List Byte := [wordHi (encode i), wordLo (encode i)]

/-! ### The opcode map as data (R96) -/

/-- One row of R96: a word `w` selects it when `w &&& mask = bits`. -/
structure OpcodeRow where
  mask : Word
  bits : Word
  deriving DecidableEq, Repr

/-- The 35 rows of R96 and spec/opcode_table.json in their first-match order; row 36, the catch-all, is their absence. -/
def opcodeMap : List OpcodeRow :=
  [⟨0xFFFF, 0x00E0⟩, ⟨0xFFFF, 0x00EE⟩, ⟨0xF000, 0x0000⟩, ⟨0xF000, 0x1000⟩, ⟨0xF000, 0x2000⟩, ⟨0xF000, 0x3000⟩,
   ⟨0xF000, 0x4000⟩, ⟨0xF000, 0x5000⟩, ⟨0xF000, 0x6000⟩, ⟨0xF000, 0x7000⟩] ++
  [⟨0xF00F, 0x8000⟩, ⟨0xF00F, 0x8001⟩, ⟨0xF00F, 0x8002⟩, ⟨0xF00F, 0x8003⟩, ⟨0xF00F, 0x8004⟩, ⟨0xF00F, 0x8005⟩,
   ⟨0xF00F, 0x8006⟩, ⟨0xF00F, 0x8007⟩, ⟨0xF00F, 0x800E⟩, ⟨0xF000, 0x9000⟩, ⟨0xF000, 0xA000⟩, ⟨0xF000, 0xB000⟩] ++
  [⟨0xF000, 0xC000⟩, ⟨0xF000, 0xD000⟩, ⟨0xF0FF, 0xE09E⟩, ⟨0xF0FF, 0xE0A1⟩, ⟨0xF0FF, 0xF007⟩, ⟨0xF0FF, 0xF00A⟩,
   ⟨0xF0FF, 0xF015⟩, ⟨0xF0FF, 0xF018⟩, ⟨0xF0FF, 0xF01E⟩, ⟨0xF0FF, 0xF029⟩, ⟨0xF0FF, 0xF033⟩, ⟨0xF0FF, 0xF055⟩,
   ⟨0xF0FF, 0xF065⟩]

/-- The position in `opcodeMap` of the first row that `w` selects; 35, one past the last row, when none does (row 36). -/
def firstRow (w : Word) : Nat := opcodeMap.findIdx fun r => w &&& r.mask == r.bits

/-- The position in `opcodeMap` of an instruction's own row. -/
def rowOf : Instr → Nat
  | .cls => 0
  | .ret => 1
  | .sys _ => 2
  | .jp _ => 3
  | .call _ => 4
  | .seVxKk _ _ => 5
  | .sneVxKk _ _ => 6
  | .seVxVy _ _ _ => 7
  | .ldVxKk _ _ => 8
  | .addVxKk _ _ => 9
  | .ldVxVy _ _ => 10
  | .orVxVy _ _ => 11
  | .andVxVy _ _ => 12
  | .xorVxVy _ _ => 13
  | .addVxVy _ _ => 14
  | .subVxVy _ _ => 15
  | .shrVx _ _ => 16
  | .subnVxVy _ _ => 17
  | .shlVx _ _ => 18
  | .sneVxVy _ _ _ => 19
  | .ldINnn _ => 20
  | .jpV0Nnn _ => 21
  | .rndVxKk _ _ => 22
  | .drwVxVyN _ _ _ => 23
  | .skpVx _ => 24
  | .sknpVx _ => 25
  | .ldVxDt _ => 26
  | .ldVxK _ => 27
  | .ldDtVx _ => 28
  | .ldStVx _ => 29
  | .addIVx _ => 30
  | .ldFVx _ => 31
  | .ldBVx _ => 32
  | .ldMemVx _ => 33
  | .ldVxMem _ => 34

end Sys2Proof
end

