-- ==== Sys2Proof/Config.lean ====
section
/-! DEFINITION. What an implementation fixes (the parameters of spec/00_scope.md R6 that the source leaves open, with the
alternatives spec/92_eei_decisions.md names for the hardware) and the one free value, the random byte. The values this
machine takes are `Machine.params`. -/

namespace Sys2Proof

/-- `LOGIC_VF`: what OR, AND and XOR do to `VF` (R155, decision D5). -/
inductive LogicVf where
  | unchanged
  | zero
  deriving DecidableEq, Repr

/-- `SHIFT_SRC`: the register SHR and SHL shift (R160, decision D6). -/
inductive ShiftSrc where
  | vx
  | vy
  deriving DecidableEq, Repr

/-- `BLOCK_I`: `I` after a block transfer, unchanged or `I + x + 1` (R180, decision D8). -/
inductive BlockI where
  | unchanged
  | advanced
  deriving DecidableEq, Repr

/-- `OOB_POLICY`: a byte address of 4096 or more in a fetch, a sprite read or the BCD store is taken modulo 4096, or the model
refuses the instruction (R63, R64, decision D7). -/
inductive OobPolicy where
  | wrap
  | refuse
  deriving DecidableEq, Repr

/-- `KEY_INDEX`: the latch bit SKP and SKNP test when `V[x] > 15`: the low nibble selects it, or no bit is selected and the
test reads zero, or the model refuses the instruction (R220, decision D12). -/
inductive KeyIndex where
  | lowNibble
  | zeroAbove15
  | refuseAbove15
  deriving DecidableEq, Repr

/-- `TICK_WHEN_STALLED`: whether the timers tick in a cycle that did nothing (R250, decision D13). -/
inductive TickWhenStalled where
  | yes
  | no
  deriving DecidableEq, Repr

/-- `DIRTY_CLEAR`: who clears the display-dirty flag (R34, decision D14). -/
inductive DirtyClear where
  | host
  | engineAtCycleStart
  deriving DecidableEq, Repr

/-- The default `FONT_DATA`: sixteen glyphs of five rows, top to bottom (R70, decision D10). -/
def conventionalFont : List Byte :=
  [0xF0, 0x90, 0x90, 0x90, 0xF0] ++ [0x20, 0x60, 0x20, 0x20, 0x70] ++
  [0xF0, 0x10, 0xF0, 0x80, 0xF0] ++ [0xF0, 0x10, 0xF0, 0x10, 0xF0] ++
  [0x90, 0x90, 0xF0, 0x10, 0x10] ++ [0xF0, 0x80, 0xF0, 0x10, 0xF0] ++
  [0xF0, 0x80, 0xF0, 0x90, 0xF0] ++ [0xF0, 0x10, 0x20, 0x40, 0x40] ++
  [0xF0, 0x90, 0xF0, 0x90, 0xF0] ++ [0xF0, 0x90, 0xF0, 0x10, 0xF0] ++
  [0xF0, 0x90, 0xF0, 0x90, 0x90] ++ [0xE0, 0x90, 0xE0, 0x90, 0xE0] ++
  [0xF0, 0x80, 0x80, 0x80, 0xF0] ++ [0xE0, 0x90, 0x90, 0x90, 0xE0] ++
  [0xF0, 0x80, 0xF0, 0x80, 0xF0] ++ [0xF0, 0x80, 0xF0, 0x80, 0x80]

/-- The parameters of R6 that are not fixed by the source, each a field with the default the spec gives it. (The random byte,
R6's `RND`, is `Config.draw`.) -/
structure Config where
  /-- `ENTRY`, the reset value of `pc` (R271, decision D17). -/
  entry : Word := 0x200
  /-- `FONT_BASE`, the address of glyph 0 (R68, decision D9). -/
  fontBase : Nat := 0x000
  /-- `FONT_DATA`, the 80 bytes of the font (R70, decision D10). -/
  fontData : List Byte := conventionalFont
  oobPolicy : OobPolicy := .wrap
  logicVf : LogicVf := .unchanged
  shiftSrc : ShiftSrc := .vx
  blockI : BlockI := .unchanged
  keyIndex : KeyIndex := .lowNibble
  tickWhenStalled : TickWhenStalled := .yes
  dirtyClear : DirtyClear := .host
  deriving DecidableEq, Repr

/-- The constraint of R69: 80 bytes of font that fit, `0 <= FONT_BASE <= 4016`. -/
def Config.valid (c : Config) : Bool := c.fontBase ≤ 4016 && c.fontData.length == 80

/-- `Draw()` (R164, decision D11): the byte of the `k`-th random draw. A FREE VALUE: it has no body, nothing constrains it,
and a statement that holds of the model holds whatever the draws are (log entry 2). -/
opaque Config.draw : Nat → Byte

end Sys2Proof
end

