-- ==== Sys2Proof/Machine/Params.lean ====
section
/-! DEFINITION. The parameter values of this machine (spec/00_scope.md R6): every parameter at the default the spec gives
it. It stands under Machine/ so that one line changes if the hardware turns out to take another value. -/

namespace Sys2Proof.Machine

/-- The configuration of the machine: `ENTRY = 0x200`, `FONT_BASE = 0x000`, `FONT_DATA` the table of R70,
`OOB_POLICY = wrap`, `LOGIC_VF = unchanged`, `SHIFT_SRC = Vx`, `BLOCK_I = unchanged`, `KEY_INDEX = low nibble`,
`TICK_WHEN_STALLED = yes`, `DIRTY_CLEAR = host` (R6). -/
def params : Config := {}

end Sys2Proof.Machine
end

