-- ==== Sys2Proof/Machine/State.lean ====
section
/-! DEFINITION. The state of the machine as plain data (spec/10_state.md R20), the reasons a step can stop, and the state
after reset (R38, R270). -/

namespace Sys2Proof.Machine

/-- Why the machine would stop with a fault. It has NO constructor: "The core raises no synchronous exception" (R240), every
abnormal condition is handled by a policy (R241), and every access is to an address that exists (R11), so nothing in this
model raises a fault. Safe: a type without values cannot hide a behaviour of the hardware. -/
inductive Fault where
  deriving DecidableEq, Repr

/-- Why the model answers no next state. With the parameters of this machine no cycle of the engine ends so. -/
inductive Refusal where
  /-- Raised by an arm of `exec` whose instruction has no meaning yet; no arm is in that case. Safe. -/
  | notModelled (mnemonic : String)
  /-- Raised by the host operation `Load` when the program does not fit, `off + L > 4096`: outside the spec (R274, decision
  D22). Safe. No instruction raises it. -/
  | programDoesNotFit
  /-- Raised by a fetch, DRW or LD B,Vx with a byte address of 4096 or more when `OOB_POLICY = refuse` (decision D7). This machine
  has `wrap`, so no step raises it. Safe. -/
  | addressOutsideMemory
  /-- Raised by SKP and SKNP with `V[x] > 15` when `KEY_INDEX = refuse when V[x] > 15` (decision D12). This machine has `low
  nibble`, so no step raises it. Safe. -/
  | keyIndexAbove15
  deriving DecidableEq, Repr

/-- The RAM as a list of (address, byte) cells: the addresses that hold something else than they hold after reset, in rising
order (`Memory.wf`). What an unlisted address reads as is `unlisted`. -/
abbrev Memory := List Host.Cell

/-- The architectural state, R20 line by line, and one field of the model's own, `draws`. -/
structure State where
  /-- `V0`..`VF` (R21); `VF` is the flag output (R22). -/
  V : Vector Byte 16
  /-- The index register (R24). -/
  I : Word
  /-- The program counter (R25). -/
  pc : Word
  /-- The stack pointer, 0 (empty) to 16 (full): the number of stack entries in use (R29). -/
  sp : Fin 17
  /-- The call stack (R29); entries at `sp` and above are dead. -/
  stack : Vector Word 16
  /-- The delay timer (R30). -/
  DT : Byte
  /-- The sound timer (R30). -/
  ST : Byte
  /-- The key latch, bit `k` for key `k` (R31). -/
  keys : Word
  /-- The wait-state flag (R32). -/
  wait : Bool
  /-- The display-dirty flag (R34). -/
  dirty : Bool
  /-- The RAM, addresses 0 to 4095 (R60). -/
  mem : Memory
  /-- The framebuffer, eight bytes a pixel row, the most significant bit leftmost (R33). -/
  fb : Vector Byte 256
  /-- MODEL'S OWN, not the spec's: how many random bytes have been drawn; the next draw is `Config.draw draws` (R164). -/
  draws : Nat
  deriving DecidableEq, Repr

/-- What a step, a meaning or a host operation answers. -/
abbrev Result := Host.Outcome State Fault Refusal

/-- The state right after reset (R38, R270): everything zero, `pc` at `ENTRY`, memory at its reset contents. DESIGN CHOICE
(log entry 1): the model's own counter `draws` starts at 0; no statement rests on it. -/
def State.reset : State where
  V := Vector.replicate 16 0
  I := 0
  pc := params.entry
  sp := 0
  stack := Vector.replicate 16 0
  DT := 0
  ST := 0
  keys := 0
  wait := false
  dirty := false
  mem := []
  fb := Vector.replicate 256 0
  draws := 0

end Sys2Proof.Machine
end

