-- ==== Sys2Proof/Machine/Ops.lean ====
section
/-! DEFINITION. The named operations over registers, memory, call stack, framebuffer and timers that every meaning is
written with. There is no operation that takes an exception and none that returns from one: the core has no exception, no
interrupt and no trap return (spec/60_exceptions.md R240, R243, R245, R246). -/

namespace Sys2Proof.Machine

/-! ### Memory (spec/20_memory.md) -/

/-- What an address that is not listed reads as: its reset contents, `FONT_DATA` in the font region and 0 elsewhere (R69). -/
def unlisted (a : Nat) : Byte :=
  if params.fontBase ≤ a ∧ a < params.fontBase + 80 then params.fontData.getD (a - params.fontBase) 0 else 0

/-- The byte at an address of the array. -/
def Memory.read (m : Memory) (a : Nat) : Byte :=
  match m with
  | [] => unlisted a
  | c :: rest => if c.1 = a then c.2 else Memory.read rest a

/-- A cell in front of a list, unless it says what the address reads as anyway. -/
def Memory.put (a : Nat) (b : Byte) (m : Memory) : Memory :=
  if b = unlisted a then m else (a, b) :: m

/-- A byte stored at an address of the array, keeping the list's canonical form. -/
def Memory.write (m : Memory) (a : Nat) (b : Byte) : Memory :=
  match m with
  | [] => Memory.put a b []
  | c :: rest =>
    if a < c.1 then Memory.put a b (c :: rest)
    else if a = c.1 then Memory.put a b rest
    else c :: Memory.write rest a b

/-- The canonical form: addresses strictly rising and inside the array (R60), no cell that says what its address reads as
without it. Equal memories in this form are equal lists. -/
abbrev Memory.wf (m : Memory) : Prop :=
  m.Pairwise (fun c d => c.1 < d.1) ∧ ∀ c ∈ m, c.1 < 4096 ∧ c.2 ≠ unlisted c.1

/-- `MemRead(addr, 1)`, the address modulo 4096 (R11, R64, decision D7); `checkRange` decides whether the access is made. -/
def State.memRead (s : State) (addr : Nat) : Byte := Memory.read s.mem (addr % 4096)

/-- `MemWrite(addr, 1, v)`, the address modulo 4096 (R11, R64, decision D7); `checkRange` decides whether the access is made. -/
def State.memWrite (s : State) (addr : Nat) (b : Byte) : State :=
  { s with mem := Memory.write s.mem (addr % 4096) b }

/-- `MemRead(addr, 2)`: big-endian, each byte's address reduced on its own (R11, R61, R63). -/
def State.memRead2 (s : State) (addr : Nat) : Word := wordOfBytes (s.memRead addr) (s.memRead (addr + 1))

/-- The instruction word at `pc`, at any `pc`, even or odd (R62). -/
def fetchWord (s : State) : Word := s.memRead2 s.pc.toNat

/-- `OOB_POLICY` at an access of `count` bytes from `first`: with `wrap` (decision D7) it is made, each address modulo 4096; with
`refuse` an instruction one of whose addresses lies outside the array is refused before it has any effect (log entry 28). -/
def checkRange (first count : Nat) (r : Result) : Result :=
  match params.oobPolicy with
  | .wrap => r
  | .refuse => if count = 0 ∨ first + count ≤ 4096 then r else .refused .addressOutsideMemory

/-! ### Registers (spec/10_state.md) -/

/-- `V[x]` (R21). -/
def State.reg (s : State) (x : Nib) : Byte := s.V[x.toNat]'x.isLt

/-- `V[x] <- b` (R21). -/
def State.setReg (s : State) (x : Nib) (b : Byte) : State := { s with V := s.V.set x.toNat b x.isLt }

/-- `I <- v` (R24). -/
def State.setI (s : State) (v : Word) : State := { s with I := v }

/-- `pc <- v` (R25). -/
def State.setPc (s : State) (v : Word) : State := { s with pc := v }

/-- `DT <- v` (R30). -/
def State.setDT (s : State) (v : Byte) : State := { s with DT := v }

/-- `ST <- v` (R30). -/
def State.setST (s : State) (v : Byte) : State := { s with ST := v }

/-- `keys <- v` (R31). -/
def State.setKeys (s : State) (v : Word) : State := { s with keys := v }

/-- `wait <- v` (R32). -/
def State.setWait (s : State) (v : Bool) : State := { s with wait := v }

/-- `dirty <- v` (R34). -/
def State.setDirty (s : State) (v : Bool) : State := { s with dirty := v }

/-- The framebuffer replaced (R33). -/
def State.setFb (s : State) (v : Vector Byte 256) : State := { s with fb := v }

/-- `Draw()`: the next random byte, and the state that has drawn it (R164). -/
def State.drawByte (s : State) : Byte × State := (Config.draw s.draws, { s with draws := s.draws + 1 })

/-- The extra advance of a skip, `pc <- (pc + 2) mod 2^16` when the condition holds (R129). -/
def State.skipIf (s : State) (c : Bool) : State := if c then s.setPc (s.pc + 2) else s

/-! ### Call stack (R29) -/

/-- `stack[j]`; every index a rule uses is below 16. -/
def State.stackAt (s : State) (j : Nat) : Word := s.stack[j]?.getD 0

/-- A push, `stack[sp] <- v ; sp <- sp + 1` (decision D18); none when the stack is full. -/
def State.push (s : State) (v : Word) : Option State :=
  if h : s.sp.val < 16 then
    some { s with stack := s.stack.set s.sp.val v h, sp := ⟨s.sp.val + 1, Nat.succ_lt_succ h⟩ }
  else none

/-- A pop, `sp <- sp - 1` and the value of `stack[sp]`, whose slot keeps it (decision D18); none when the stack is empty. -/
def State.pop (s : State) : Option (Word × State) :=
  if s.sp.val = 0 then none
  else some (s.stackAt (s.sp.val - 1), { s with sp := ⟨s.sp.val - 1, Nat.lt_of_le_of_lt (Nat.sub_le _ _) s.sp.isLt⟩ })

/-! ### Framebuffer (R33) -/

/-- `fb[p]`; every position a rule uses is below 256. -/
def fbRead (fb : Vector Byte 256) (p : Nat) : Byte := fb[p]?.getD 0

/-- `fb[p] <- b`; every position a rule uses is below 256. -/
def fbWrite (fb : Vector Byte 256) (p : Nat) (b : Byte) : Vector Byte 256 := fb.setIfInBounds p b

/-- The pixel at column `px` (0 to 63) and row `py` (0 to 31): bit `7 - px mod 8` of byte `py*8 + px/8` (R33). -/
def fbPixel (fb : Vector Byte 256) (px py : Nat) : Bool := (fbRead fb (py * 8 + px / 8)).getLsbD (7 - px % 8)

/-! ### Timers (spec/60_exceptions.md R250) -/

/-- One tick of one timer: "decrement by at most 1 per cycle, floor at 0, never wrap negative". -/
def countDown (t : Byte) : Byte := if t = 0 then 0 else t - 1

/-- `Tick()`: both timers count down (R250). -/
def State.tick (s : State) : State := (s.setDT (countDown s.DT)).setST (countDown s.ST)

end Sys2Proof.Machine
end

