-- ==== Sys2Proof/Machine/Cycle.lean ====
section
/-! DEFINITION. What a cycle does around the instruction's own effect (spec/30_encoding.md R90): the advance of `pc` before
it and the timer tick after it. -/

namespace Sys2Proof.Machine

/-- The start of a cycle: `pc <- (pc + 2) mod 2^16` (R90 step 1), and `dirty` left alone with `DIRTY_CLEAR = host` (R34,
decision D14). -/
def beginCycle (s : State) : State :=
  match params.dirtyClear with
  | .host => s.setPc (s.pc + 2)
  | .engineAtCycleStart => (s.setPc (s.pc + 2)).setDirty false

/-- Whether the cycle does nothing of its own: an unknown word or SYS, a dropped RET or CALL, a stalled wait-for-key (the
cycles decision D13 names). `none` is an unknown word; `s` is the state the instruction runs on. -/
def cycleIsIdle (d : Option Instr) (s : State) : Bool :=
  match d with
  | none => true
  | some (.sys _) => true
  | some .ret => s.sp == 0
  | some (.call _) => s.sp == 16
  | some (.ldVxK _) => s.keys == 0
  | some _ => false

/-- Whether the timers tick: in every cycle with `TICK_WHEN_STALLED = yes` (R250, decision D13). -/
def timersTick (d : Option Instr) (s : State) : Bool :=
  match params.tickWhenStalled with
  | .yes => true
  | .no => !cycleIsIdle d s

/-- The end of a cycle, R90 step 5: the tick, after the instruction's effects. `s` is the state the instruction ran on. -/
def endCycle (d : Option Instr) (s : State) (o : Result) : Result :=
  match o with
  | .next t => .next (if timersTick d s then t.tick else t)
  | .fault r => .fault r
  | .refused r => .refused r

end Sys2Proof.Machine
end

