-- ==== Sys2Proof/Machine/Flags.lean ====
section
/-! DEFINITION. The flag outputs. The machine has no flags register: `VF` doubles as the flag of the instructions of
spec/10_state.md R22, and is written last (R23, spec/41_alu.md R151). -/

namespace Sys2Proof.Machine

/-- `b2n(c)` as a byte (R9). -/
def b2n (c : Bool) : Byte := if c then 1 else 0

/-- The selector of `VF`, `V[15]` (R10). -/
def vf : Nib := 15

/-- Carry of an addition, `b2n(a + b > 255)` (R150). -/
def carryFlag (a b : Byte) : Byte := b2n (decide (a.toNat + b.toNat > 255))

/-- NOT borrow of `a - b`, `b2n(a >= b)` (R150). -/
def notBorrowFlag (a b : Byte) : Byte := b2n (decide (a.toNat ≥ b.toNat))

/-- The bit SHR shifts out, `a[0]` (R160). -/
def lowBitFlag (a : Byte) : Byte := b2n (a.getLsbD 0)

/-- The bit SHL shifts out, `a[7]` (R162). -/
def highBitFlag (a : Byte) : Byte := b2n (a.getLsbD 7)

/-- The two writes of a flag-producing instruction: the result to `V[x]`, then the flag to `VF`, so that with `x = 15` the
flag stays (R23, R151). -/
def State.setResultFlag (s : State) (x : Nib) (result flag : Byte) : State := (s.setReg x result).setReg vf flag

/-- The write of a logic operation: the result to `V[x]`, and `VF` not written with `LOGIC_VF = unchanged` (R155,
decision D5). With `LOGIC_VF = zero`, which this machine does not take, the 0 is written last, so that with `x = 15` `VF` ends
as 0: DESIGN CHOICE (log entry 14), since the spec does not say which of the two writes stays. -/
def State.setLogicResult (s : State) (x : Nib) (result : Byte) : State :=
  match params.logicVf with
  | .unchanged => s.setReg x result
  | .zero => s.setResultFlag x result 0

end Sys2Proof.Machine
end

