-- ==== Sys2Proof/Machine/Operands.lean ====
section
/-! DEFINITION. The operand forms: how an instruction's fields and the state give the values and addresses it works on
(spec/30_encoding.md R94, spec/42_index_memory.md R180, R183, R185, spec/43_display.md R201, spec/44_timers_keys.md R220,
R223). The byte form `V[x]` is `State.reg`, the immediate forms are the fields themselves. -/

namespace Sys2Proof.Machine

/-- `nnn` as a 16-bit value, zero-extended (R94). -/
def zextAddr (nnn : Addr) : Word := nnn.setWidth 16

/-- A byte as a 16-bit value, zero-extended (R9). -/
def zextByte (b : Byte) : Word := b.setWidth 16

/-- The low nibble of a byte, `b[3:0]` (R183, R220). -/
def lowNibble (b : Byte) : Nib := b.extractLsb' 0 4

/-- The effective address `I + j`, an exact number (R180). -/
def State.ea (s : State) (j : Nat) : Nat := s.I.toNat + j

/-- The `j`-th register of a block transfer, `V[j]` (R186). -/
def State.regAt (s : State) (j : Nat) : Byte := s.reg (BitVec.ofNat 4 j)

/-- The register SHR and SHL shift: `V[x]` with `SHIFT_SRC = Vx` (R160, decision D6). -/
def shiftOperand (x y : Nib) (s : State) : Byte :=
  match params.shiftSrc with
  | .vx => s.reg x
  | .vy => s.reg y

/-- Whether the key `V[x]` names is set in the latch: the low nibble of `V[x]` is the bit index with
`KEY_INDEX = low nibble` (R220, decision D12). -/
def keySet (x : Nib) (s : State) : Bool :=
  match params.keyIndex with
  | .lowNibble => s.keys.getLsbD (lowNibble (s.reg x)).toNat
  | .zeroAbove15 => s.keys.getLsbD (s.reg x).toNat
  | .refuseAbove15 => s.keys.getLsbD (lowNibble (s.reg x)).toNat

/-- `KEY_INDEX` at a key test: with `refuse when V[x] > 15` the instruction is refused there (decision D12, log entry 28). -/
def checkKeyIndex (x : Nib) (s : State) (r : Result) : Result :=
  match params.keyIndex with
  | .lowNibble => r
  | .zeroAbove15 => r
  | .refuseAbove15 => if (s.reg x).toNat ≤ 15 then r else .refused .keyIndexAbove15

/-- The largest `k` below `b` with `m[k] = 1`; 0 when there is none. -/
def highestBelow (m : Word) : Nat → Nat
  | 0 => 0
  | b + 1 => if m.getLsbD b then b else highestBelow m b

/-- `HighestKey(m)`, the largest `k` in 0..15 with `m[k] = 1`, as a byte (R223). -/
def highestKey (m : Word) : Byte := BitVec.ofNat 8 (highestBelow m 16)

/-- The address of the glyph a byte's low nibble names, `FONT_BASE + 5 * b[3:0]` (R183). -/
def glyphAddr (b : Byte) : Word := BitVec.ofNat 16 (params.fontBase + 5 * (lowNibble b).toNat)

/-- The count of a block transfer, `min(x + 1, max(0, 4096 - I))` (R185). The subtraction stops at 0, so it is the
rule's `max`. -/
def blockCount (x : Nib) (i : Word) : Nat := min (x.toNat + 1) (4096 - i.toNat)

/-- `I` after a block transfer: unchanged with `BLOCK_I = unchanged` (R180, decision D8). -/
def State.advanceBlockI (s : State) (x : Nib) : State :=
  match params.blockI with
  | .unchanged => s
  | .advanced => s.setI (s.I + BitVec.ofNat 16 (x.toNat + 1))

/-- The column of a sprite's origin, `V[x] mod 64` (R201). -/
def spriteX (x : Nib) (s : State) : Nat := (s.reg x).toNat % 64

/-- The row of a sprite's origin, `V[y] mod 32` (R201). -/
def spriteY (y : Nib) (s : State) : Nat := (s.reg y).toNat % 32

/-- Row `r` of a sprite, the byte `b_r = MemRead(I + r, 1)` (R202). -/
def spriteRow (s : State) (r : Nat) : Byte := s.memRead (s.ea r)

end Sys2Proof.Machine
end

