-- ==== Sys2Proof/Machine/Alu.lean ====
section
/-! DEFINITION. Register loads, the ALU group and the random instruction (spec/41_alu.md): step 4 of the cycle (R120). -/

namespace Sys2Proof.Machine

/-- LD Vx,kk (R152). -/
def execLdVxKk (x : Nib) (kk : Byte) (s : State) : Result := .next (s.setReg x kk)

/-- ADD Vx,kk: wraps, no carry output (R153). -/
def execAddVxKk (x : Nib) (kk : Byte) (s : State) : Result := .next (s.setReg x (s.reg x + kk))

/-- LD Vx,Vy (R154). -/
def execLdVxVy (x y : Nib) (s : State) : Result := .next (s.setReg x (s.reg y))

/-- OR Vx,Vy (R155). -/
def execOrVxVy (x y : Nib) (s : State) : Result := .next (s.setLogicResult x (s.reg x ||| s.reg y))

/-- AND Vx,Vy (R156). -/
def execAndVxVy (x y : Nib) (s : State) : Result := .next (s.setLogicResult x (s.reg x &&& s.reg y))

/-- XOR Vx,Vy (R157). -/
def execXorVxVy (x y : Nib) (s : State) : Result := .next (s.setLogicResult x (s.reg x ^^^ s.reg y))

/-- ADD Vx,Vy with carry into `VF` (R158). -/
def execAddVxVy (x y : Nib) (s : State) : Result :=
  .next (s.setResultFlag x (s.reg x + s.reg y) (carryFlag (s.reg x) (s.reg y)))

/-- SUB Vx,Vy: `V[x] - V[y]`, NOT borrow into `VF` (R159). -/
def execSubVxVy (x y : Nib) (s : State) : Result :=
  .next (s.setResultFlag x (s.reg x - s.reg y) (notBorrowFlag (s.reg x) (s.reg y)))

/-- SHR Vx: logical, by one, the bit shifted out into `VF` (R160). -/
def execShrVx (x y : Nib) (s : State) : Result :=
  .next (s.setResultFlag x (shiftOperand x y s >>> 1) (lowBitFlag (shiftOperand x y s)))

/-- SUBN Vx,Vy: `V[y] - V[x]`, NOT borrow into `VF` (R161). -/
def execSubnVxVy (x y : Nib) (s : State) : Result :=
  .next (s.setResultFlag x (s.reg y - s.reg x) (notBorrowFlag (s.reg y) (s.reg x)))

/-- SHL Vx: logical, by one, the bit shifted out into `VF` (R162). -/
def execShlVx (x y : Nib) (s : State) : Result :=
  .next (s.setResultFlag x (shiftOperand x y s <<< 1) (highBitFlag (shiftOperand x y s)))

/-- RND Vx,kk: a random byte masked by `kk` (R163); the byte is a free value (R164). -/
def execRndVxKk (x : Nib) (kk : Byte) (s : State) : Result := .next (s.drawByte.2.setReg x (s.drawByte.1 &&& kk))

end Sys2Proof.Machine
end

