-- ==== Sys2Proof/Machine/Display.lean ====
section
/-! DEFINITION. The display instructions (spec/43_display.md): step 4 of the cycle (R120). -/

namespace Sys2Proof.Machine

/-- CLS: every framebuffer byte zero, `dirty` set (R200). -/
def execCls (s : State) : Result := .next ((s.setFb (Vector.replicate 256 0)).setDirty true)

/-- What a draw carries from row to row: the framebuffer so far and whether a collision was recorded (R208). -/
structure Drawing where
  fb : Vector Byte 256
  hit : Bool
  deriving DecidableEq, Repr

/-- A mask XORed into one framebuffer byte, with the collision test on the byte before the XOR (R205). -/
def Drawing.xorByte (d : Drawing) (p : Nat) (m : Byte) : Drawing where
  fb := fbWrite d.fb p (fbRead d.fb p ^^^ m)
  hit := d.hit || (fbRead d.fb p &&& m) != 0

/-- One sprite row `b` at column `px` of display row `row`: the first byte (R205), and when the bit offset is not zero the
second, which wraps to the start of the same row (R206). -/
def Drawing.xorRow (d : Drawing) (px row : Nat) (b : Byte) : Drawing :=
  if px % 8 = 0 then d.xorByte (row * 8 + px / 8) b
  else (d.xorByte (row * 8 + px / 8) (b >>> (px % 8))).xorByte (row * 8 + (px / 8 + 1) % 8) (b <<< (8 - px % 8))

/-- The first rows of a sprite drawn from the top: row `r` goes to display row `(py + r) mod 32` (R204, R208). -/
def drawRows (s : State) (px py : Nat) : Nat → Drawing
  | 0 => { fb := s.fb, hit := false }
  | r + 1 => (drawRows s px py r).xorRow px ((py + r) % 32) (spriteRow s r)

/-- DRW Vx,Vy,n: `n` sprite rows XORed in, then the collision flag to `VF`, then `dirty` (R208). -/
def execDrwVxVyN (x y n : Nib) (s : State) : Result :=
  checkRange (s.ea 0) n.toNat
    (.next (((s.setFb (drawRows s (spriteX x s) (spriteY y s) n.toNat).fb).setReg vf
      (b2n (drawRows s (spriteX x s) (spriteY y s) n.toNat).hit)).setDirty true))

end Sys2Proof.Machine
end

