-- ==== Sys2Proof/Machine/Flow.lean ====
section
/-! DEFINITION. Control transfer, skips and the no-op (spec/40_flow.md). A meaning is step 4 of the cycle (R90, R120): it
runs on a state whose `pc` already holds the address of the next sequential instruction, and anything its rule does not
name is unchanged. -/

namespace Sys2Proof.Machine

/-- A word that is no row of the opcode map: `nop` (R121, row 36). -/
def execUnknown (s : State) : Result := .next s

/-- SYS nnn, the legacy "call native routine": `nop` (R121). -/
def execSys (_nnn : Addr) (s : State) : Result := .next s

/-- RET: nothing when the stack is empty, else the popped address to `pc` (R122). -/
def execRet (s : State) : Result :=
  match s.pop with
  | none => .next s
  | some (a, t) => .next (t.setPc a)

/-- JP nnn (R123). -/
def execJp (nnn : Addr) (s : State) : Result := .next (s.setPc (zextAddr nnn))

/-- CALL nnn: nothing when the stack is full, else the already advanced `pc` is pushed (R124). -/
def execCall (nnn : Addr) (s : State) : Result :=
  match s.push s.pc with
  | none => .next s
  | some t => .next (t.setPc (zextAddr nnn))

/-- SE Vx,kk (R125). -/
def execSeVxKk (x : Nib) (kk : Byte) (s : State) : Result := .next (s.skipIf (s.reg x == kk))

/-- SNE Vx,kk (R126). -/
def execSneVxKk (x : Nib) (kk : Byte) (s : State) : Result := .next (s.skipIf (s.reg x != kk))

/-- SE Vx,Vy (R127); `n` is ignored (decision D3). -/
def execSeVxVy (x y : Nib) (s : State) : Result := .next (s.skipIf (s.reg x == s.reg y))

/-- SNE Vx,Vy (R128); `n` is ignored (decision D3). -/
def execSneVxVy (x y : Nib) (s : State) : Result := .next (s.skipIf (s.reg x != s.reg y))

/-- JP V0,nnn: the sum is not reduced to 12 bits (R131, decision D19). -/
def execJpV0Nnn (nnn : Addr) (s : State) : Result := .next (s.setPc (zextByte (s.reg 0) + zextAddr nnn))

end Sys2Proof.Machine
end

