-- ==== Sys2Proof/Machine/Index.lean ====
section
/-! DEFINITION. The index register, the BCD store and the block transfers (spec/42_index_memory.md): step 4 of the cycle
(R120). -/

namespace Sys2Proof.Machine

/-- LD I,nnn (R181). -/
def execLdINnn (nnn : Addr) (s : State) : Result := .next (s.setI (zextAddr nnn))

/-- ADD I,Vx: modulo 2^16, no flag (R182). -/
def execAddIVx (x : Nib) (s : State) : Result := .next (s.setI (s.I + zextByte (s.reg x)))

/-- LD F,Vx: the font glyph address for the low nibble of `V[x]` (R183). -/
def execLdFVx (x : Nib) (s : State) : Result := .next (s.setI (glyphAddr (s.reg x)))

/-- The hundreds digit of a byte (R184). -/
def hundreds (v : Byte) : Byte := v / 100

/-- The tens digit of a byte (R184). -/
def tens (v : Byte) : Byte := v / 10 % 10

/-- The units digit of a byte (R184). -/
def units (v : Byte) : Byte := v % 10

/-- LD B,Vx: hundreds, tens, units at `I`, `I + 1`, `I + 2`, each address modulo 4096 (R184). -/
def execLdBVx (x : Nib) (s : State) : Result :=
  checkRange (s.ea 0) 3
    (.next (((s.memWrite (s.ea 0) (hundreds (s.reg x))).memWrite (s.ea 1) (tens (s.reg x))).memWrite (s.ea 2)
      (units (s.reg x))))

/-- The first `k` stores of a block store, in ascending order: `V[j]` to `I + j` (R186). -/
def State.storeBlock (s : State) : Nat → State
  | 0 => s
  | j + 1 => (State.storeBlock s j).memWrite (s.ea j) (s.regAt j)

/-- The first `k` loads of a block load, in ascending order: `mem[I + j]` to `V[j]` (R187). -/
def State.loadBlock (s : State) : Nat → State
  | 0 => s
  | j + 1 => (State.loadBlock s j).setReg (BitVec.ofNat 4 j) (s.memRead (s.ea j))

/-- LD [I],Vx: the block store, its count clamped (R185, R186). -/
def execLdMemVx (x : Nib) (s : State) : Result := .next ((s.storeBlock (blockCount x s.I)).advanceBlockI x)

/-- LD Vx,[I]: the block load, its count clamped (R185, R187). -/
def execLdVxMem (x : Nib) (s : State) : Result := .next ((s.loadBlock (blockCount x s.I)).advanceBlockI x)

end Sys2Proof.Machine
end

