-- ==== Sys2Proof/Machine/TimersKeys.lean ====
section
/-! DEFINITION. The key and timer instructions and the wait-for-key stall (spec/44_timers_keys.md): step 4 of the cycle
(R120). -/

namespace Sys2Proof.Machine

/-- SKP Vx (R220). -/
def execSkpVx (x : Nib) (s : State) : Result := checkKeyIndex x s (.next (s.skipIf (keySet x s)))

/-- SKNP Vx (R221). -/
def execSknpVx (x : Nib) (s : State) : Result := checkKeyIndex x s (.next (s.skipIf (!keySet x s)))

/-- LD Vx,DT: the value before this cycle's tick (R222). -/
def execLdVxDt (x : Nib) (s : State) : Result := .next (s.setReg x s.DT)

/-- LD Vx,K: with a key in the latch, its number to `V[x]`, the latch cleared and the wait over; with none, `pc` back on this
instruction and `wait` set (R224). -/
def execLdVxK (x : Nib) (s : State) : Result :=
  if s.keys = 0 then .next ((s.setPc (s.pc - 2)).setWait true)
  else .next (((s.setReg x (highestKey s.keys)).setKeys 0).setWait false)

/-- LD DT,Vx (R225). -/
def execLdDtVx (x : Nib) (s : State) : Result := .next (s.setDT (s.reg x))

/-- LD ST,Vx (R226). -/
def execLdStVx (x : Nib) (s : State) : Result := .next (s.setST (s.reg x))

end Sys2Proof.Machine
end

