-- ==== Sys2Proof/Machine/Step.lean ====
section
/-! DEFINITION. One engine step, `execute_cycle()` (spec/30_encoding.md R90). -/

namespace Sys2Proof.Machine

/-- R90: fetch, advance `pc`, decode, execute, tick. A word outside the opcode map is the no-op of R121. -/
def step (s : State) : Host.Outcome State Fault Refusal :=
  checkRange s.pc.toNat 2
    (match decodeWord (fetchWord s) with
    | .ok i => endCycle (some i) (beginCycle s) (exec i (beginCycle s))
    | .error _ => endCycle none (beginCycle s) (execUnknown (beginCycle s)))

/-- `s` with the instruction word `w` stored where `step` fetches next: big-endian at `pc` and `pc + 1` (R61, R63). -/
def State.withFetchWord (s : State) (nbits w : Nat) : State :=
  (s.memWrite s.pc.toNat (wordHi (BitVec.ofNat 16 (w % 2 ^ nbits)))).memWrite (s.pc.toNat + 1)
    (wordLo (BitVec.ofNat 16 (w % 2 ^ nbits)))

end Sys2Proof.Machine
end

