-- ==== Sys2Proof/Machine/HostMoves.lean ====
section
/-! DEFINITION. What the outside world may do between two cycles (spec/60_exceptions.md R256, R257,
spec/70_reset_and_hazards.md R270, R272, R274). The engine's step never calls these. The host's reads are the fields
`keys`, `wait` and `dirty` themselves and, for the display, `State.pixel`. -/

namespace Sys2Proof.Machine

/-- Bytes stored in ascending order from `off` (R274). -/
def State.loadBytes (s : State) (off : Nat) : List Byte → State
  | [] => s
  | b :: rest => (s.memWrite off b).loadBytes (off + 1) rest

/-- Instruction words as the byte sequence they are loaded as, big-endian (R274). -/
def bytesOfWords : List Word → List Byte
  | [] => []
  | w :: rest => wordHi w :: wordLo w :: bytesOfWords rest

/-- The moves of R257 that change the state. -/
inductive HostMove where
  /-- (a) "write `keys` with any 16-bit value". -/
  | writeKeys (v : Word)
  /-- (b) "set `dirty <- 0`". -/
  | clearDirty
  /-- (d) `Load(off, B)` with a raw byte stream (R274). -/
  | load (off : Nat) (bytes : List Byte)
  /-- (d) `Load(off, W)` with pre-assembled instruction words (R274). -/
  | loadWords (off : Nat) (words : List Word)
  /-- (e) Reset (R270, R272). -/
  | reset
  deriving DecidableEq, Repr

/-- `Load(off, B)`: `mem[off + i] <- B[i]`; refused when it does not fit, which is outside the spec (R274, decision D22). -/
def hostLoad (off : Nat) (bytes : List Byte) (s : State) : Result :=
  if off + bytes.length ≤ 4096 then .next (s.loadBytes off bytes) else .refused .programDoesNotFit

/-- Reset as a move: the state of R38. The count of random draws, the model's own field, goes on, so that the bytes drawn
after a reset are as free as those before it. -/
def hostReset (s : State) : State := { State.reset with draws := s.draws }

/-- One host move between two cycles (R257). -/
def hostMove (m : HostMove) (s : State) : Result :=
  match m with
  | .writeKeys v => .next (s.setKeys v)
  | .clearDirty => .next (s.setDirty false)
  | .load off bytes => hostLoad off bytes s
  | .loadWords off words => hostLoad off (bytesOfWords words) s
  | .reset => .next (hostReset s)

/-- The Render accessor, as far as the spec keeps it: whether the pixel at column `px`, row `py` is on (R33, R255). -/
def State.pixel (s : State) (px py : Nat) : Bool := fbPixel s.fb px py

end Sys2Proof.Machine
end

