-- ==== Sys2Proof/Safety.lean ====
section
/-! DEFINITION. What a safe run is and the terms in which claims about the machine are made: which parts of the state a
change leaves alone, the invariants every cycle keeps, the states that cycles and host moves reach, and the tables of
spec/10_state.md R22 and R26 written from the rules, not from the meanings. -/

namespace Sys2Proof

open Sys2Proof.Machine

/-! ### Frames -/

/-- The parts of the state, one for each line of R20, and the model's own count of random draws. -/
inductive Part where
  | V | I | pc | sp | stack | DT | ST | keys | wait | dirty | mem | fb | draws
  deriving DecidableEq, Repr

/-- Every part of the state but the listed ones is in `t` as it was in `s`: every register, every stack entry, every flag,
every byte of memory and of the framebuffer. -/
def Keeps (changed : List Part) (s t : State) : Prop :=
  (.V ∉ changed → ∀ j : Nib, t.reg j = s.reg j) ∧
  (.I ∉ changed → t.I = s.I) ∧
  (.pc ∉ changed → t.pc = s.pc) ∧
  (.sp ∉ changed → t.sp = s.sp) ∧
  (.stack ∉ changed → ∀ j, t.stackAt j = s.stackAt j) ∧
  (.DT ∉ changed → t.DT = s.DT) ∧
  (.ST ∉ changed → t.ST = s.ST) ∧
  (.keys ∉ changed → t.keys = s.keys) ∧
  (.wait ∉ changed → t.wait = s.wait) ∧
  (.dirty ∉ changed → t.dirty = s.dirty) ∧
  (.mem ∉ changed → t.mem = s.mem ∧ ∀ a, t.memRead a = s.memRead a) ∧
  (.fb ∉ changed → ∀ p, fbRead t.fb p = fbRead s.fb p) ∧
  (.draws ∉ changed → t.draws = s.draws)

/-- The instruction runs to completion from `s`: it answers a next state `t`, in which only the listed parts may differ and
of which `P` holds. -/
def Completes (i : Instr) (s : State) (changed : List Part) (P : State → Prop) : Prop :=
  ∃ t, exec i s = .next t ∧ Keeps changed s t ∧ P t

/-- Register `x` holds `b` in `t`, and every other register holds what it held in `s`. -/
def WritesReg (x : Nib) (b : Byte) (s t : State) : Prop := ∀ j : Nib, t.reg j = if j = x then b else s.reg j

/-! ### One cycle -/

/-- The state `s` is about to run the instruction `i`: the word at `pc` decodes to it. -/
def Fetches (s : State) (i : Instr) : Prop := decodeWord (fetchWord s) = .ok i

/-- The cycle from `s` runs the instruction `i` and ends in `t`. -/
def Cycle (i : Instr) (s t : State) : Prop := Fetches s i ∧ step s = .next t

/-- The value of `pc` at the end of the cycle of `i` from `s`, the table of R26 (with `pc0` the value at its start). -/
def pcAfter (i : Instr) (s : State) : Nat :=
  let seq := (s.pc.toNat + 2) % 65536
  let skip (c : Bool) := if c then (s.pc.toNat + 4) % 65536 else seq
  match i with
  | .jp nnn => nnn.toNat
  | .call nnn => if s.sp.val < 16 then nnn.toNat else seq
  | .ret => if s.sp.val = 0 then seq else (s.stackAt (s.sp.val - 1)).toNat
  | .jpV0Nnn nnn => ((s.reg 0).toNat + nnn.toNat) % 65536
  | .seVxKk x kk => skip (s.reg x == kk)
  | .sneVxKk x kk => skip (s.reg x != kk)
  | .seVxVy x y _ => skip (s.reg x == s.reg y)
  | .sneVxVy x y _ => skip (s.reg x != s.reg y)
  | .skpVx x => skip (s.keys.getLsbD ((s.reg x).toNat % 16))
  | .sknpVx x => skip (!s.keys.getLsbD ((s.reg x).toNat % 16))
  | .ldVxK _ => if s.keys = 0 then s.pc.toNat else seq
  | .cls | .sys _ | .ldVxKk _ _ | .addVxKk _ _ | .ldVxVy _ _ | .orVxVy _ _ | .andVxVy _ _ | .xorVxVy _ _
  | .addVxVy _ _ | .subVxVy _ _ | .shrVx _ _ | .subnVxVy _ _ | .shlVx _ _ | .ldINnn _ | .rndVxKk _ _
  | .drwVxVyN _ _ _ | .ldVxDt _ | .ldDtVx _ | .ldStVx _ | .addIVx _ | .ldFVx _ | .ldBVx _ | .ldMemVx _
  | .ldVxMem _ => seq

/-! ### Invariants -/

/-- The word at `pc` is a wait-for-key instruction. -/
def AtWaitForKey (s : State) : Prop := ∃ x, Fetches s (.ldVxK x)

/-- R32: `wait` is "true only while the instruction stream is blocked on a pending key press", that is while the instruction
about to run is the wait-for-key instruction that set it. -/
def WaitMeansBlocked (s : State) : Prop := s.wait = true → AtWaitForKey s

/-- What every cycle of the engine keeps: the memory in its canonical form, and the meaning of `wait`. -/
structure Inv (s : State) : Prop where
  memWf : s.mem.wf
  waiting : WaitMeansBlocked s

/-- The states that engine cycles and host moves reach from reset (R7, R39, R257). -/
inductive Reachable : State → Prop where
  | reset : Reachable State.reset
  | cycle {s t : State} : Reachable s → step s = .next t → Reachable t
  | move {s t : State} (m : HostMove) : Reachable s → hostMove m s = .next t → Reachable t

/-- The instructions that write `V[x]` as a named destination, with the flag outputs of R22 and the block load: whether the
instruction, run from `s`, may change `VF`. -/
def mayWriteVf (i : Instr) (s : State) : Bool :=
  match i with
  | .addVxVy _ _ | .subVxVy _ _ | .subnVxVy _ _ | .shrVx _ _ | .shlVx _ _ | .drwVxVyN _ _ _ => true
  | .ldVxKk x _ | .addVxKk x _ | .ldVxVy x _ | .orVxVy x _ | .andVxVy x _ | .xorVxVy x _ | .rndVxKk x _
  | .ldVxDt x => x == vf
  | .ldVxK x => x == vf && s.keys != 0
  | .ldVxMem x => x == vf && decide (s.I.toNat + 15 < 4096)
  | .cls | .ret | .sys _ | .jp _ | .call _ | .seVxKk _ _ | .sneVxKk _ _ | .seVxVy _ _ _ | .sneVxVy _ _ _
  | .ldINnn _ | .jpV0Nnn _ | .skpVx _ | .sknpVx _ | .ldDtVx _ | .ldStVx _ | .addIVx _ | .ldFVx _ | .ldBVx _
  | .ldMemVx _ => false

/-! ### What the machine cannot see -/

/-- The two states agree but for the stack entries at `sp` and above, which are dead (R37). -/
def SameButDeadStack (s t : State) : Prop :=
  t = { s with stack := t.stack } ∧ ∀ j < s.sp.val, t.stackAt j = s.stackAt j

/-! ### Sprites (R201, R203, R207) -/

/-- Sprite pixel `(i, r)`: bit `7 - i` of the sprite row `b_r = mem[(I + r) mod 4096]`. -/
def spriteBit (s : State) (i r : Nat) : Bool := (s.memRead (s.I.toNat + r)).getLsbD (7 - i)

/-- The display column of sprite column `i` drawn from `V[x]`: `(px + i) mod 64` with `px = V[x] mod 64`. -/
def spriteCol (s : State) (x : Nib) (i : Nat) : Nat := ((s.reg x).toNat % 64 + i) % 64

/-- The display row of sprite row `r` drawn from `V[y]`: `(py + r) mod 32` with `py = V[y] mod 32`. -/
def spriteLine (s : State) (y : Nib) (r : Nat) : Nat := ((s.reg y).toNat % 32 + r) % 32

end Sys2Proof
end

