-- ==== Sys2Proof/Certificates/Slice0/Obligations.lean ====
section
/-! DEFINITION. The statements for the provers. Each docstring names the rule of spec/ it formalises, and, where a clause rests
on a decision of spec/92_eei_decisions.md or on an inference the spec marks as its own, that decision. `exec` is step 4 of the
cycle (R90, R120): its state already has `pc` advanced past the instruction. -/

open Sys2Proof Sys2Proof.Machine

/-! ## Encodings -/

/-- DECODE AND ENCODE AGREE (R96, R97; the patterns are decision D1): decoding the word of a well-formed instruction gives the
instruction back, for every instruction and every operand. -/
def Obligations.DecodeOfEncodeIsIdentity : Prop :=
  ∀ i : Instr, i.wellFormed = true → decodeWord (encode i) = .ok i

/-- The other direction (R97): a word that decodes to an instruction is the word of that instruction, which is well-formed. -/
def Obligations.EncodeOfDecodeIsIdentity : Prop :=
  ∀ (w : Word) (i : Instr), decodeWord w = .ok i → encode i = w ∧ i.wellFormed = true

/-- The decoder against the opcode map of R96 as data: every word selects, by first match, the row of the instruction it
decodes to, and a word that decodes to none selects no row (row 36). That the decoder answers such a word with an error that
names it is the model's choice (DESIGN CHOICE, log entry 26): by R97 decoding never fails, and row 36 is a no-op. -/
def Obligations.DecoderFollowsOpcodeMap : Prop :=
  ∀ w : Word,
    (∀ i, decodeWord w = .ok i → firstRow w = rowOf i) ∧
    (∀ r, decodeWord w = .error r → firstRow w = 35 ∧ r = .unlisted w)

/-- R98: exactly which words are `SYS` and exactly which are unknown (the patterns are decision D1). -/
def Obligations.NoOpWordsAreExactly : Prop :=
  ∀ w : Word,
    ((∃ nnn, decodeWord w = .ok (.sys nnn)) ↔ w.toNat < 0x1000 ∧ w.toNat ≠ 0x00E0 ∧ w.toNat ≠ 0x00EE) ∧
    ((∃ r, decodeWord w = .error r) ↔
      (w.toNat / 4096 = 8 ∧ w.toNat % 16 ∈ [8, 9, 0xA, 0xB, 0xC, 0xD, 0xF]) ∨
      (w.toNat / 4096 = 0xE ∧ w.toNat % 256 ∉ [0x9E, 0xA1]) ∨
      (w.toNat / 4096 = 0xF ∧ w.toNat % 256 ∉ [0x07, 0x0A, 0x15, 0x18, 0x1E, 0x29, 0x33, 0x55, 0x65]))

/-- R91: an instruction is exactly its two bytes, whatever follows them, and fewer than two bytes are none. -/
def Obligations.EveryInstructionIsTwoBytes : Prop :=
  (∀ (i : Instr) (rest : List Byte), i.wellFormed = true →
    (encodeBytes i).length = 2 ∧ decodeBytes (encodeBytes i ++ rest) = .ok (i, rest)) ∧
  (∀ (bytes rest : List Byte) (i : Instr), decodeBytes bytes = .ok (i, rest) → bytes.length = rest.length + 2) ∧
  (∀ bytes : List Byte, bytes.length < 2 → decodeBytes bytes = .error .truncated)

/-- The words of R104 and one word of each other family, written out from R96, decode to what they stand for (the patterns are
decision D1). The last conjunct, an error that names a word of no row, is the model's choice (DESIGN CHOICE, log entry 26): by R97
decoding never fails, and row 36 is a no-op. -/
def Obligations.WorkedEncodingsDecode : Prop :=
  decodeWord 0x6011 = .ok (.ldVxKk 0 0x11) ∧ decodeWord 0x00E0 = .ok .cls ∧ decodeWord 0x1204 = .ok (.jp 0x204) ∧
  decodeWord 0x83A4 = .ok (.addVxVy 3 0xA) ∧ decodeWord 0xFB07 = .ok (.ldVxDt 0xB) ∧
  decodeWord 0xD125 = .ok (.drwVxVyN 1 2 5) ∧ decodeWord 0xF533 = .ok (.ldBVx 5) ∧ decodeWord 0xE49E = .ok (.skpVx 4) ∧
  decodeWord 0x00EE = .ok .ret ∧ decodeWord 0x8AB8 = .error (.unlisted 0x8AB8)

/-! ## The cycle -/

/-- R61 to R63: the instruction word is the byte at `pc` in its high half and the byte at `pc + 1` in its low half, each
address modulo 4096 (decision D7), at any `pc`. -/
def Obligations.FetchIsBigEndianAtAnyPc : Prop :=
  ∀ s : State, (fetchWord s).toNat =
    (Memory.read s.mem (s.pc.toNat % 4096)).toNat * 256 + (Memory.read s.mem ((s.pc.toNat + 1) % 4096)).toNat

/-- R90: when the bytes at `pc` decode to `i`, the step is `exec i` on the state whose `pc` is 2 further, then both timers,
each one less and never below 0 (the tick after every instruction is decision D13). -/
def Obligations.StepRunsDecodedInstruction : Prop :=
  ∀ (s : State) (i : Instr),
    decodeBytes [s.memRead s.pc.toNat, s.memRead (s.pc.toNat + 1)] = .ok (i, []) →
    step s = match exec i { s with pc := s.pc + 2 } with
      | .next t => .next { t with DT := if t.DT = 0 then 0 else t.DT - 1, ST := if t.ST = 0 then 0 else t.ST - 1 }
      | .fault r => .fault r
      | .refused r => .refused r

/-- R121: the cycle of a word of no row only advances `pc` by 2 and ticks the timers (the tick is decision D13). -/
def Obligations.UnknownWordCycleIsNoOp : Prop :=
  ∀ (s : State) (r : DecodeRefusal), decodeWord (fetchWord s) = .error r →
    ∃ t, step s = .next t ∧ Keeps [.pc, .DT, .ST] s t ∧ t.pc = s.pc + 2 ∧
      t.DT.toNat = s.DT.toNat - 1 ∧ t.ST.toNat = s.ST.toNat - 1

/-- R240: no cycle ends in a fault or a refusal; from every state there is a next state. That none is refused where R242 allows a
model to refuse, that a word of no row runs, and that there is no fault at all are the model's choices (DESIGN CHOICE, log entries
25, 26 and 27). -/
def Obligations.EveryCycleCompletes : Prop := ∀ s : State, ∃ t, step s = .next t

/-- R26: how each instruction leaves `pc` (arithmetic modulo 2^16 is decision D19, the key index D12, the stack slot D18). -/
def Obligations.ProgramCounterAfterCycle : Prop :=
  ∀ (s t : State) (i : Instr), Cycle i s t → t.pc.toNat = pcAfter i s

/-- R250, R225, R226: at the end of every cycle a timer is one less than what it held, or than what its load instruction put
into it, and never below 0 (ticking in every cycle is decision D13). -/
def Obligations.TimersAfterCycle : Prop :=
  ∀ (s t : State), step s = .next t →
    (t.DT.toNat = s.DT.toNat - 1 ∨ ∃ x, Fetches s (.ldDtVx x)) ∧
    (t.ST.toNat = s.ST.toNat - 1 ∨ ∃ x, Fetches s (.ldStVx x)) ∧
    (∀ x, Fetches s (.ldDtVx x) → t.DT.toNat = (s.reg x).toNat - 1) ∧
    (∀ x, Fetches s (.ldStVx x) → t.ST.toNat = (s.reg x).toNat - 1)

/-! ## Invariants and reset -/

/-- AN INVARIANT EVERY CYCLE AND EVERY HOST MOVE KEEPS: the memory stays in its canonical form, so equal memories stay equal data.
The form is the model's own (DESIGN CHOICE, log entry 31); the spec says only that memory is 4096 bytes (R60). -/
def Obligations.CycleKeepsMemoryCanonical : Prop :=
  (∀ s t : State, s.mem.wf → step s = .next t → t.mem.wf) ∧
  (∀ (m : HostMove) (s t : State), s.mem.wf → hostMove m s = .next t → t.mem.wf)

/-- AN INVARIANT EVERY CYCLE KEEPS (R32, decision D15): while `wait` is set, the instruction at `pc` is the wait-for-key
instruction. -/
def Obligations.CycleKeepsWaitMeansBlocked : Prop :=
  ∀ s t : State, WaitMeansBlocked s → step s = .next t → WaitMeansBlocked t

/-- The invariants hold right after reset: the meaning of `wait` (R32), and the canonical form of memory, which is the model's own
(DESIGN CHOICE, log entry 31). -/
def Obligations.ResetMeetsInvariants : Prop := Inv State.reset

/-- The memory is canonical in every state that engine cycles and host moves (R257) reach from reset. The form is the model's own
(DESIGN CHOICE, log entry 31). -/
def Obligations.ReachableMemoryCanonical : Prop := ∀ s : State, Reachable s → s.mem.wf

/-- R38, R270: what reset leaves, with the parameters `ENTRY` (decision D17), `FONT_BASE` and `FONT_DATA` (D9, D10); and R272, that
the host's Reset, which may come between any two cycles (decision D21), leaves from every state just that in every part of the
spec's state. That the model's own count of draws goes on is the model's choice (DESIGN CHOICE, log entry 29). -/
def Obligations.ResetState : Prop :=
  (∀ j : Nib, State.reset.reg j = 0) ∧ State.reset.I = 0 ∧ State.reset.pc = 0x200 ∧ State.reset.sp.val = 0 ∧
  (∀ j, State.reset.stackAt j = 0) ∧ State.reset.DT = 0 ∧ State.reset.ST = 0 ∧ State.reset.keys = 0 ∧
  State.reset.wait = false ∧ State.reset.dirty = false ∧ (∀ p, fbRead State.reset.fb p = 0) ∧
  (∀ j < 80, State.reset.memRead (params.fontBase + j) = params.fontData.getD j 0) ∧
  (∀ a < 4096, a < params.fontBase ∨ params.fontBase + 80 ≤ a → State.reset.memRead a = 0) ∧
  (∀ s : State, ∃ t, hostMove .reset s = .next t ∧ Keeps [.draws] State.reset t)

/-! ## Rules about the whole machine -/

/-- R31: the engine writes the key latch in one place; a cycle leaves it, or clears it at a wait-for-key instruction that
found a key. -/
def Obligations.OnlyWaitForKeyConsumesKeys : Prop :=
  ∀ s t : State, step s = .next t → t.keys = s.keys ∨ (t.keys = 0 ∧ s.keys ≠ 0 ∧ AtWaitForKey s)

/-- R33, R34: a cycle of any instruction but CLS and DRW leaves the framebuffer and the dirty flag; one of those two sets the
dirty flag (that the engine never clears it is decision D14). -/
def Obligations.OnlyDisplayInstructionsDraw : Prop :=
  ∀ s t : State, step s = .next t →
    (t.dirty = true ∧ (Fetches s .cls ∨ ∃ x y n, Fetches s (.drwVxVyN x y n))) ∨
    (t.dirty = s.dirty ∧ ∀ p, fbRead t.fb p = fbRead s.fb p)

/-- R29: a cycle changes the call stack only by a push of CALL below 16 entries or a pop of RET above 0; a pop leaves every
entry. -/
def Obligations.OnlyCallAndRetMoveTheStack : Prop :=
  ∀ s t : State, step s = .next t →
    (t.sp = s.sp ∧ ∀ j, t.stackAt j = s.stackAt j) ∨
    ((∃ nnn, Fetches s (.call nnn)) ∧ s.sp.val < 16 ∧ t.sp.val = s.sp.val + 1 ∧
      ∀ j, j ≠ s.sp.val → t.stackAt j = s.stackAt j) ∨
    (Fetches s .ret ∧ 0 < s.sp.val ∧ t.sp.val = s.sp.val - 1 ∧ ∀ j, t.stackAt j = s.stackAt j)

/-- R35, R60: of all instructions only LD B,Vx and LD [I],Vx write memory; a cycle of any other word leaves every byte. -/
def Obligations.OnlyStoresWriteMemory : Prop :=
  ∀ s t : State, step s = .next t →
    (∃ x, Fetches s (.ldBVx x) ∨ Fetches s (.ldMemVx x)) ∨ (t.mem = s.mem ∧ ∀ a, t.memRead a = s.memRead a)

/-- R24: `I` is written by LD I,nnn, ADD I,Vx and LD F,Vx and by nothing else (block transfers leave it: decision D8). -/
def Obligations.OnlyIndexInstructionsWriteI : Prop :=
  ∀ s t : State, step s = .next t →
    t.I = s.I ∨ (∃ nnn, Fetches s (.ldINnn nnn)) ∨ ∃ x, Fetches s (.addIVx x) ∨ Fetches s (.ldFVx x)

/-- R22: no cycle changes `VF` but those of the flag-producing instructions and those whose instruction has `VF` as its named
destination (OR, AND and XOR only so: decision D5; a block load only where its clamped count reaches `VF`, R185 and
decision D8). -/
def Obligations.OnlyFlagWritersChangeVf : Prop :=
  ∀ (s t : State) (i : Instr), Cycle i s t → mayWriteVf i s = false → t.reg vf = s.reg vf

/-- R30, R32, R37: the sound timer, the wait flag and the dirty flag are never read by the engine. Two states that differ in
them alone step to states that agree in everything else. Over RND this rests on the model's choice that equal counts of draws draw
equal bytes (DESIGN CHOICE, log entry 2): both states have the same count. -/
def Obligations.SoundWaitDirtyUnobservable : Prop :=
  ∀ (s t : State) (st : Byte) (w d : Bool), step s = .next t →
    ∃ u, step { s with ST := st, wait := w, dirty := d } = .next u ∧
      u = { t with ST := u.ST, wait := u.wait, dirty := u.dirty }

/-- R29, R37: stack entries at `sp` and above are dead. Two states that differ in them alone step to two states that differ,
if at all, in dead entries alone. Which slot a push writes is decision D18. Over RND this rests on the model's choice that equal
counts of draws draw equal bytes (DESIGN CHOICE, log entry 2): both states have the same count. -/
def Obligations.DeadStackEntriesUnobservable : Prop :=
  ∀ s s' t : State, SameButDeadStack s s' → step s = .next t → ∃ t', step s' = .next t' ∧ SameButDeadStack t t'

/-- R75: what a block store writes is what the very next fetch from there sees. After LD [I],Vx has stored at least two bytes
at an `I` below 4095, a fetch at `I` gives `V0` and `V1`. -/
def Obligations.StoredInstructionIsFetched : Prop :=
  ∀ (s t : State) (x : Nib), s.mem.wf → Cycle (.ldMemVx x) s t → 1 ≤ x.toNat → s.I.toNat < 4095 → t.pc = s.I →
    fetchWord t = wordOfBytes (s.reg 0) (s.reg 1)

/-- R130, R124, R122: a CALL on a stack that is not full, whose target holds a RET, comes back after two cycles to the
instruction after the CALL, with the stack pointer as it was (the stack slots are decision D18). -/
def Obligations.CallThenReturnComesBack : Prop :=
  ∀ (s t u : State) (nnn : Addr), s.sp.val < 16 → Cycle (.call nnn) s t → Cycle .ret t u →
    u.pc = s.pc + 2 ∧ u.sp = s.sp

/-- R227: with an empty latch, any number of cycles at a wait-for-key instruction leaves the machine on that instruction, with
`wait` set and the timers run down by one a cycle (decision D13), and nothing else changed. -/
def Obligations.StallLastsWhileNoKey : Prop :=
  ∀ (s : State) (k : Nat), s.keys = 0 → AtWaitForKey s →
    ∃ t, Host.Core.run core (k + 1) s = .next t ∧ Keeps [.DT, .ST, .wait] s t ∧ t.wait = true ∧
      t.DT.toNat = s.DT.toNat - (k + 1) ∧ t.ST.toNat = s.ST.toNat - (k + 1)

/-- R227, R224, R257: once the host makes the latch non-zero, the next cycle ends the stall: the number of the highest key set
to `V[x]`, the latch cleared, `wait` cleared (decision D15), `pc` on the next instruction. -/
def Obligations.KeyEndsTheStall : Prop :=
  ∀ (s : State) (x : Nib) (k : Word), Fetches s (.ldVxK x) → k ≠ 0 →
    ∃ u t, hostMove (.writeKeys k) s = .next u ∧ step u = .next t ∧ WritesReg x (highestKey k) s t ∧
      t.keys = 0 ∧ t.wait = false ∧ t.pc = s.pc + 2

/-! ## Control transfer (spec/40_flow.md) -/

/-- R121, the instruction's own effect: SYS nnn does nothing, whatever `nnn`. -/
def Obligations.SysDoesNothing : Prop :=
  ∀ (nnn : Addr) (s : State), Completes (.sys nnn) s [] fun _ => True

/-- R123, encoding included: JP nnn puts `nnn`, zero-extended, into `pc`, and changes nothing else. The target is always below 4096. Where the
word at `pc` is a JP to `pc` itself, a cycle leaves `pc` and ticks the timers. -/
def Obligations.JumpGoesToAddress : Prop :=
  (∀ nnn : Addr, decodeWord (0x1#4 ++ nnn) = .ok (.jp nnn)) ∧
  (∀ (nnn : Addr) (s : State), Completes (.jp nnn) s [.pc] fun t => t.pc.toNat = nnn.toNat ∧ t.pc.toNat < 4096) ∧
  (∀ (nnn : Addr) (s : State), Fetches s (.jp nnn) → s.pc.toNat = nnn.toNat →
    ∃ t, step s = .next t ∧ Keeps [.DT, .ST] s t ∧ t.DT.toNat = s.DT.toNat - 1 ∧ t.ST.toNat = s.ST.toNat - 1)

/-- R124 (the slot is decision D18): CALL nnn with fewer than 16 entries in use pushes the already advanced `pc` to
`stack[sp]`, raises `sp` by one and jumps; with 16 it changes nothing. -/
def Obligations.CallPushesOrIsDropped : Prop :=
  ∀ (nnn : Addr) (s : State),
    if s.sp.val < 16 then
      Completes (.call nnn) s [.pc, .sp, .stack] fun t =>
        t.pc.toNat = nnn.toNat ∧ t.sp.val = s.sp.val + 1 ∧
          ∀ j, t.stackAt j = if j = s.sp.val then s.pc else s.stackAt j
    else Completes (.call nnn) s [] fun _ => True

/-- R122 (the slot is decision D18): RET with an empty stack changes nothing; else it lowers `sp` by one and puts the popped
entry into `pc` as it is, leaving every entry in its slot. -/
def Obligations.ReturnPopsOrIsDropped : Prop :=
  ∀ s : State,
    if s.sp.val = 0 then Completes .ret s [] fun _ => True
    else Completes .ret s [.pc, .sp] fun t =>
      t.sp.val = s.sp.val - 1 ∧ t.pc = s.stackAt (s.sp.val - 1)

/-- R125, R126, encodings included: SE Vx,kk advances `pc` by an extra 2 exactly when `V[x] = kk`, SNE Vx,kk exactly when `V[x] ≠ kk`; nothing
else changes. -/
def Obligations.ImmediateSkips : Prop :=
  ∀ (x : Nib) (kk : Byte) (s : State),
    decodeWord (0x3#4 ++ x ++ kk) = .ok (.seVxKk x kk) ∧ decodeWord (0x4#4 ++ x ++ kk) = .ok (.sneVxKk x kk) ∧
    (Completes (.seVxKk x kk) s [.pc] fun t =>
      t.pc.toNat = if s.reg x = kk then (s.pc.toNat + 2) % 65536 else s.pc.toNat) ∧
    (Completes (.sneVxKk x kk) s [.pc] fun t =>
      t.pc.toNat = if s.reg x = kk then s.pc.toNat else (s.pc.toNat + 2) % 65536)

/-- R127, R128: SE Vx,Vy and SNE Vx,Vy for every value of the ignored field `n` (decision D3); with `x = y` the one always
skips and the other never. -/
def Obligations.RegisterSkips : Prop :=
  ∀ (x y n : Nib) (s : State),
    (Completes (.seVxVy x y n) s [.pc] fun t =>
      (t.pc.toNat = if s.reg x = s.reg y then (s.pc.toNat + 2) % 65536 else s.pc.toNat) ∧
      (x = y → t.pc.toNat = (s.pc.toNat + 2) % 65536)) ∧
    (Completes (.sneVxVy x y n) s [.pc] fun t =>
      (t.pc.toNat = if s.reg x = s.reg y then s.pc.toNat else (s.pc.toNat + 2) % 65536) ∧
      (x = y → t.pc.toNat = s.pc.toNat))

/-- R131 (no reduction to 12 bits is decision D19): JP V0,nnn puts `V[0] + nnn` into `pc`; the sum never passes 0x10FE. -/
def Obligations.IndexedJumpAddsV0 : Prop :=
  ∀ (nnn : Addr) (s : State), Completes (.jpV0Nnn nnn) s [.pc] fun t =>
    t.pc.toNat = (s.reg 0).toNat + nnn.toNat ∧ t.pc.toNat ≤ 0x10FE

/-! ## Loads and the ALU group (spec/41_alu.md) -/

/-- R152, encoding included: LD Vx,kk writes `kk` to `V[x]` and nothing else; `VF` changes only as the destination. -/
def Obligations.LoadImmediate : Prop :=
  ∀ (x : Nib) (kk : Byte) (s : State), decodeWord (0x6#4 ++ x ++ kk) = .ok (.ldVxKk x kk) ∧
    Completes (.ldVxKk x kk) s [.V] fun t =>
    WritesReg x kk s t ∧ (x ≠ vf → t.reg vf = s.reg vf)

/-- R153, encoding included: ADD Vx,kk writes `(V[x] + kk) mod 256` and defines no carry: `VF` changes only as the destination. -/
def Obligations.AddImmediateWraps : Prop :=
  ∀ (x : Nib) (kk : Byte) (s : State), decodeWord (0x7#4 ++ x ++ kk) = .ok (.addVxKk x kk) ∧
    Completes (.addVxKk x kk) s [.V] fun t =>
    (t.reg x).toNat = ((s.reg x).toNat + kk.toNat) % 256 ∧ (∀ j, j ≠ x → t.reg j = s.reg j) ∧
    (kk = 0 → t.reg x = s.reg x)

/-- R154 (the instruction is decision D4): LD Vx,Vy copies `V[y]` to `V[x]`, no flag. -/
def Obligations.MoveRegister : Prop :=
  ∀ (x y : Nib) (s : State), Completes (.ldVxVy x y) s [.V] fun t => WritesReg x (s.reg y) s t

/-- R155, R156, R157: OR, AND and XOR bit by bit; that `VF` is not written (but as the destination) is decision D5. -/
def Obligations.LogicOperations : Prop :=
  ∀ (x y : Nib) (s : State),
    (Completes (.orVxVy x y) s [.V] fun t =>
      (∀ k, (t.reg x).getLsbD k = ((s.reg x).getLsbD k || (s.reg y).getLsbD k)) ∧ ∀ j, j ≠ x → t.reg j = s.reg j) ∧
    (Completes (.andVxVy x y) s [.V] fun t =>
      (∀ k, (t.reg x).getLsbD k = ((s.reg x).getLsbD k && (s.reg y).getLsbD k)) ∧ ∀ j, j ≠ x → t.reg j = s.reg j) ∧
    (Completes (.xorVxVy x y) s [.V] fun t =>
      (∀ k, (t.reg x).getLsbD k = ((s.reg x).getLsbD k ^^ (s.reg y).getLsbD k)) ∧ ∀ j, j ≠ x → t.reg j = s.reg j)

/-- R158, R151, encoding included: ADD Vx,Vy writes the sum modulo 256 to `V[x]` and then the carry to `VF`, which with `x = 15` is what stays;
with `y = 15` the old `VF` is the operand. -/
def Obligations.AddSetsCarry : Prop :=
  ∀ (x y : Nib) (s : State), decodeWord (0x8#4 ++ x ++ y ++ 0x4#4) = .ok (.addVxVy x y) ∧
    Completes (.addVxVy x y) s [.V] fun t =>
    (x ≠ vf → (t.reg x).toNat = ((s.reg x).toNat + (s.reg y).toNat) % 256) ∧
    (t.reg vf).toNat = (if (s.reg x).toNat + (s.reg y).toNat > 255 then 1 else 0) ∧
    ∀ j, j ≠ x → j ≠ vf → t.reg j = s.reg j

/-- R159, R161, R151: SUB is `V[x] - V[y]`, SUBN is `V[y] - V[x]` (which is which is decision D1), modulo 256; `VF` is 1
exactly when there is no borrow, also when it is the destination. -/
def Obligations.SubtractSetsNotBorrow : Prop :=
  ∀ (x y : Nib) (s : State),
    (Completes (.subVxVy x y) s [.V] fun t =>
      (x ≠ vf → (t.reg x).toNat = ((s.reg x).toNat + 256 - (s.reg y).toNat) % 256) ∧
      (t.reg vf).toNat = (if (s.reg x).toNat ≥ (s.reg y).toNat then 1 else 0) ∧
      ∀ j, j ≠ x → j ≠ vf → t.reg j = s.reg j) ∧
    (Completes (.subnVxVy x y) s [.V] fun t =>
      (x ≠ vf → (t.reg x).toNat = ((s.reg y).toNat + 256 - (s.reg x).toNat) % 256) ∧
      (t.reg vf).toNat = (if (s.reg y).toNat ≥ (s.reg x).toNat then 1 else 0) ∧
      ∀ j, j ≠ x → j ≠ vf → t.reg j = s.reg j)

/-- R160, R162, R151: SHR and SHL shift `V[x]` itself by one (decision D6), whatever `y` is, and put the bit shifted out into
`VF`, also when it is the destination. -/
def Obligations.ShiftsSetShiftedOutBit : Prop :=
  ∀ (x y : Nib) (s : State),
    (Completes (.shrVx x y) s [.V] fun t =>
      (x ≠ vf → (t.reg x).toNat = (s.reg x).toNat / 2) ∧ (t.reg vf).toNat = (s.reg x).toNat % 2 ∧
      ∀ j, j ≠ x → j ≠ vf → t.reg j = s.reg j) ∧
    (Completes (.shlVx x y) s [.V] fun t =>
      (x ≠ vf → (t.reg x).toNat = (s.reg x).toNat * 2 % 256) ∧ (t.reg vf).toNat = (s.reg x).toNat / 128 ∧
      ∀ j, j ≠ x → j ≠ vf → t.reg j = s.reg j)

/-- R163, encoding included: RND Vx,kk writes a drawn byte masked by `kk`, whatever byte the draw is (a free value, R164): bits outside `kk` are 0,
and with `kk = 0` the result is 0. That the byte is `Config.draw` of the count of draws, and that each RND raises that count by one,
so that every execution has a draw of its own (decision D11), is how the model writes the free value (DESIGN CHOICE, log entry 2;
the count is no state of the spec). -/
def Obligations.RandomByteIsMasked : Prop :=
  ∀ (x : Nib) (kk : Byte) (s : State), decodeWord (0xC#4 ++ x ++ kk) = .ok (.rndVxKk x kk) ∧
    Completes (.rndVxKk x kk) s [.V, .draws] fun t =>
    (∃ r : Byte, r = Config.draw s.draws ∧ WritesReg x (r &&& kk) s t) ∧ t.draws = s.draws + 1 ∧
    (∀ k, kk.getLsbD k = false → (t.reg x).getLsbD k = false) ∧ (kk = 0 → t.reg x = 0)

/-! ## Index register, BCD and block transfers (spec/42_index_memory.md) -/

/-- R181, encoding included: LD I,nnn puts `nnn`, zero-extended, into `I`; the result is always below 4096. -/
def Obligations.LoadIndex : Prop :=
  ∀ (nnn : Addr) (s : State), decodeWord (0xA#4 ++ nnn) = .ok (.ldINnn nnn) ∧
    Completes (.ldINnn nnn) s [.I] fun t => t.I.toNat = nnn.toNat ∧ t.I.toNat < 4096

/-- R182: ADD I,Vx adds modulo 2^16 (decision D19) and writes no flag, whatever the sum. -/
def Obligations.AddToIndexWraps : Prop :=
  ∀ (x : Nib) (s : State), Completes (.addIVx x) s [.I] fun t => t.I.toNat = (s.I.toNat + (s.reg x).toNat) % 65536

/-- R183: LD F,Vx puts `FONT_BASE + 5 * V[x][3:0]` into `I` (the base is the parameter of decision D9); at reset the five bytes
there are the glyph of that nibble (R69). -/
def Obligations.GlyphAddressInI : Prop :=
  ∀ (x : Nib) (s : State), Completes (.ldFVx x) s [.I] fun t =>
    t.I.toNat = params.fontBase + 5 * ((s.reg x).toNat % 16) ∧
    ∀ r < 5, State.reset.memRead (t.I.toNat + r) = params.fontData.getD (5 * ((s.reg x).toNat % 16) + r) 0

/-- R184: LD B,Vx stores the decimal digits of `V[x]`, hundreds first, at `I`, `I + 1`, `I + 2` modulo 4096 (decision D7);
every other byte of memory reads as before. In a state with canonical memory, which every reachable state has. -/
def Obligations.BcdDigitsStored : Prop :=
  ∀ (x : Nib) (s : State), s.mem.wf → Completes (.ldBVx x) s [.mem] fun t =>
    (t.memRead s.I.toNat).toNat = (s.reg x).toNat / 100 ∧
    (t.memRead (s.I.toNat + 1)).toNat = (s.reg x).toNat / 10 % 10 ∧
    (t.memRead (s.I.toNat + 2)).toNat = (s.reg x).toNat % 10 ∧
    (∀ a < 4096, (∀ j < 3, a ≠ (s.I.toNat + j) % 4096) → t.memRead a = s.memRead a)

/-- R185, R186: LD [I],Vx stores `V[j]` at `I + j` for each `j` below the clamped count `min(x + 1, max(0, 4096 - I))`, every
other byte reads as before, and `I` is unchanged (the count at `I >= 4096` and `I` are decision D8). -/
def Obligations.BlockStoreIsClamped : Prop :=
  ∀ (x : Nib) (s : State), s.mem.wf → Completes (.ldMemVx x) s [.mem] fun t =>
    (∀ j : Nib, j.toNat ≤ x.toNat → s.I.toNat + j.toNat < 4096 → t.memRead (s.I.toNat + j.toNat) = s.reg j) ∧
    (∀ a < 4096, (∀ j ≤ x.toNat, a ≠ s.I.toNat + j) → t.memRead a = s.memRead a)

/-- R185, R187: LD Vx,[I] loads `V[j]` from `I + j` for each `j` up to `x` whose address is below 4096; every other register
keeps its value, and memory and `I` are unchanged (the count at `I >= 4096` and `I` are decision D8). -/
def Obligations.BlockLoadIsClamped : Prop :=
  ∀ (x : Nib) (s : State), Completes (.ldVxMem x) s [.V] fun t =>
    ∀ j : Nib, t.reg j =
      if j.toNat ≤ x.toNat ∧ s.I.toNat + j.toNat < 4096 then s.memRead (s.I.toNat + j.toNat) else s.reg j

/-! ## Display (spec/43_display.md) -/

/-- R200, encoding included: CLS zeroes every framebuffer byte and sets the dirty flag, whatever was there; every other part of the state is
untouched. -/
def Obligations.ClearDisplay : Prop :=
  decodeWord 0x00E0 = .ok .cls ∧
  ∀ s : State, Completes .cls s [.fb, .dirty] fun t => (∀ p < 256, fbRead t.fb p = 0) ∧ t.dirty = true

/-- R208: DRW Vx,Vy,n completes with only `VF`, the framebuffer and the dirty flag written; `VF` is 0 or 1, the dirty flag is
set; with `n = 0` the framebuffer is unchanged and `VF` is 0 (decision D16). -/
def Obligations.DrawEffects : Prop :=
  ∀ (x y n : Nib) (s : State), Completes (.drwVxVyN x y n) s [.V, .fb, .dirty] fun t =>
    (∀ j, j ≠ vf → t.reg j = s.reg j) ∧ (t.reg vf = 0 ∨ t.reg vf = 1) ∧ t.dirty = true ∧
    (n = 0 → t.reg vf = 0 ∧ ∀ p, fbRead t.fb p = fbRead s.fb p)

/-- R207: the net pixel mapping. Sprite pixel `(i, r)` toggles display pixel `((px + i) mod 64, (py + r) mod 32)` when its bit
is 1 and leaves it when its bit is 0, and no other display pixel changes: the sprite wraps at both edges (its rows are read
modulo 4096: decision D7). -/
def Obligations.SpritePixelMapping : Prop :=
  ∀ (x y n : Nib) (s t : State), exec (.drwVxVyN x y n) s = .next t →
    (∀ r < n.toNat, ∀ i < 8, fbPixel t.fb (spriteCol s x i) (spriteLine s y r) =
      (fbPixel s.fb (spriteCol s x i) (spriteLine s y r) ^^ spriteBit s i r)) ∧
    (∀ px < 64, ∀ py < 32, (∀ r < n.toNat, ∀ i < 8, ¬(px = spriteCol s x i ∧ py = spriteLine s y r)) →
      fbPixel t.fb px py = fbPixel s.fb px py)

/-- R210: `VF` is 1 after a DRW exactly when some sprite pixel whose bit is 1 meets a display pixel that was on before the
instruction (its rows are read modulo 4096: decision D7). -/
def Obligations.CollisionFlagLaw : Prop :=
  ∀ (x y n : Nib) (s t : State), exec (.drwVxVyN x y n) s = .next t →
    (t.reg vf = 1 ↔ ∃ r < n.toNat, ∃ i < 8,
      spriteBit s i r = true ∧ fbPixel s.fb (spriteCol s x i) (spriteLine s y r) = true)

/-- R209: the same DRW twice leaves every framebuffer byte as it was, where both draws have the same coordinates, that is where
neither coordinate register is `VF` or the first draw left `VF` as it was; and the second leaves `VF = 1` exactly when a sprite
pixel whose bit is 1 lies on a display pixel that was off before the first (the rule's own inference from R207; the sprite's rows
are read modulo 4096: decision D7). -/
def Obligations.SpriteDrawnTwiceRestores : Prop :=
  ∀ (x y n : Nib) (s t u : State), (x ≠ vf ∧ y ≠ vf) ∨ t.reg vf = s.reg vf →
    exec (.drwVxVyN x y n) s = .next t → exec (.drwVxVyN x y n) t = .next u →
    (∀ p < 256, fbRead u.fb p = fbRead s.fb p) ∧
    (u.reg vf = 1 ↔ ∃ r < n.toNat, ∃ i < 8,
      spriteBit s i r = true ∧ fbPixel s.fb (spriteCol s x i) (spriteLine s y r) = false)

/-! ## Keys and timers (spec/44_timers_keys.md) -/

/-- R220, R221: SKP skips exactly when the latch bit the low nibble of `V[x]` selects (decision D12) is set, SKNP exactly when
it is clear; the latch is not changed. -/
def Obligations.KeySkips : Prop :=
  ∀ (x : Nib) (s : State),
    (Completes (.skpVx x) s [.pc] fun t =>
      t.pc.toNat = if s.keys.getLsbD ((s.reg x).toNat % 16) then (s.pc.toNat + 2) % 65536 else s.pc.toNat) ∧
    (Completes (.sknpVx x) s [.pc] fun t =>
      t.pc.toNat = if s.keys.getLsbD ((s.reg x).toNat % 16) then s.pc.toNat else (s.pc.toNat + 2) % 65536)

/-- R222, R225, R226: LD Vx,DT copies the delay timer before this cycle's tick (an inference of the spec), LD DT,Vx and LD ST,Vx
load the timers. -/
def Obligations.TimerTransfers : Prop :=
  ∀ (x : Nib) (s : State),
    (Completes (.ldVxDt x) s [.V] fun t => WritesReg x s.DT s t) ∧
    (Completes (.ldDtVx x) s [.DT] fun t => t.DT = s.reg x) ∧
    (Completes (.ldStVx x) s [.ST] fun t => t.ST = s.reg x) ∧
    (∀ t, Cycle (.ldVxDt x) s t → t.reg x = s.DT ∧ t.DT.toNat = s.DT.toNat - 1)

/-- R224: LD Vx,K with a key in the latch writes the highest key's number, clears the latch and `wait` (decision D15); with an
empty latch it takes `pc` back by 2 and sets `wait`. -/
def Obligations.WaitForKey : Prop :=
  ∀ (x : Nib) (s : State),
    if s.keys = 0 then
      Completes (.ldVxK x) s [.pc, .wait] fun t => t.pc.toNat = (s.pc.toNat + 65536 - 2) % 65536 ∧ t.wait = true
    else
      Completes (.ldVxK x) s [.V, .keys, .wait] fun t =>
        WritesReg x (highestKey s.keys) s t ∧ (t.reg x).toNat < 16 ∧ t.keys = 0 ∧ t.wait = false

/-- R223: `HighestKey(m)` of a non-zero mask is the largest `k` in 0..15 with `m[k] = 1`. -/
def Obligations.HighestKeyIsLargestSetBit : Prop :=
  (∀ m : Word, m ≠ 0 → (highestKey m).toNat < 16 ∧ m.getLsbD (highestKey m).toNat = true ∧
    ∀ k, (highestKey m).toNat < k → k < 16 → m.getLsbD k = false) ∧
  highestKey 0x0001 = 0 ∧ highestKey 0x0024 = 5 ∧ highestKey 0x8001 = 15

/-! ## The host (spec/60_exceptions.md, spec/70_reset_and_hazards.md) -/

/-- R274: a load of bytes that fits places byte `i` at `off + i`, a load of words that fits places word `i` big-endian at
`off + 2*i` and the address after it, and neither changes anything else; one that does not fit is refused by name (outside the
spec: decision D22). -/
def Obligations.HostLoadPlacesBytes : Prop :=
  (∀ (s : State) (off : Nat) (bytes : List Byte), s.mem.wf →
    if off + bytes.length ≤ 4096 then
      ∃ t, hostMove (.load off bytes) s = .next t ∧ Keeps [.mem] s t ∧
        (∀ i < bytes.length, t.memRead (off + i) = bytes.getD i 0) ∧
        (∀ a < 4096, a < off ∨ off + bytes.length ≤ a → t.memRead a = s.memRead a)
    else hostMove (.load off bytes) s = .refused .programDoesNotFit) ∧
  (∀ (s : State) (off : Nat) (words : List Word), s.mem.wf →
    if off + 2 * words.length ≤ 4096 then
      ∃ t, hostMove (.loadWords off words) s = .next t ∧ Keeps [.mem] s t ∧
        (∀ i < words.length, t.memRead (off + 2 * i) = wordHi (words.getD i 0) ∧
          t.memRead (off + 2 * i + 1) = wordLo (words.getD i 0)) ∧
        (∀ a < 4096, a < off ∨ off + 2 * words.length ≤ a → t.memRead a = s.memRead a)
    else hostMove (.loadWords off words) s = .refused .programDoesNotFit)
end

