-- ==== Sys2Proof/Laws/Decode.lean ====
section
/-! SUPPORT. The laws of the encodings: what each field reads from a word written as its parts, and what each decoder group
answers. -/

namespace Sys2Proof

/-! ### A word cut into bytes and put together again (R61) -/

@[simp] theorem wordHi_wordOfBytes (hi lo : Byte) : wordHi (wordOfBytes hi lo) = hi :=
  BitVec.extractLsb'_append_eq_left

@[simp] theorem wordLo_wordOfBytes (hi lo : Byte) : wordLo (wordOfBytes hi lo) = lo :=
  BitVec.extractLsb'_append_eq_right

/-! ### Fields of the formats of R93 -/

section Formats

variable (op x y n : Nib) (kk : Byte) (nnn : Addr)

@[simp] theorem fieldOp_nnn : fieldOp (op ++ nnn) = op := BitVec.extractLsb'_append_eq_left
@[simp] theorem fieldNnn_nnn : fieldNnn (op ++ nnn) = nnn := BitVec.extractLsb'_append_eq_right
@[simp] theorem fieldKk_xkk : fieldKk (op ++ x ++ kk) = kk := BitVec.extractLsb'_append_eq_right
@[simp] theorem fieldN_xyn : fieldN (op ++ x ++ y ++ n) = n := BitVec.extractLsb'_append_eq_right

@[simp] theorem fieldOp_xkk : fieldOp (op ++ x ++ kk) = op := by
  unfold fieldOp
  rw [BitVec.extractLsb'_append_eq_of_le (by decide)]
  exact BitVec.extractLsb'_append_eq_left

@[simp] theorem fieldX_xkk : fieldX (op ++ x ++ kk) = x := by
  unfold fieldX
  rw [BitVec.extractLsb'_append_eq_of_le (by decide)]
  exact BitVec.extractLsb'_append_eq_right

@[simp] theorem fieldOp_xyn : fieldOp (op ++ x ++ y ++ n) = op := by
  unfold fieldOp
  rw [BitVec.extractLsb'_append_eq_of_le (by decide), BitVec.extractLsb'_append_eq_of_le (by decide)]
  exact BitVec.extractLsb'_append_eq_left

@[simp] theorem fieldX_xyn : fieldX (op ++ x ++ y ++ n) = x := by
  unfold fieldX
  rw [BitVec.extractLsb'_append_eq_of_le (by decide), BitVec.extractLsb'_append_eq_of_le (by decide)]
  exact BitVec.extractLsb'_append_eq_right

@[simp] theorem fieldY_xyn : fieldY (op ++ x ++ y ++ n) = y := by
  unfold fieldY
  rw [BitVec.extractLsb'_append_eq_of_le (by decide)]
  exact BitVec.extractLsb'_append_eq_right

end Formats

/-! ### A word from its parts -/

/-- Two words that agree on their sixteen bits are equal. -/
theorem word_ext {v w : Word} (h : ∀ i < 16, v.getLsbD i = w.getLsbD i) : v = w := BitVec.eq_of_getLsbD_eq h

/-- A word is its two bytes, high byte first (R61). -/
@[simp] theorem wordOfBytes_hi_lo (w : Word) : wordOfBytes (wordHi w) (wordLo w) = w := by
  refine word_ext fun i hi => ?_
  unfold wordOfBytes wordHi wordLo
  rw [BitVec.getLsbD_append, BitVec.getLsbD_extractLsb', BitVec.getLsbD_extractLsb']
  split
  · simp [*]
  · rw [show 8 + (i - 8) = i by omega]
    simp; omega

/-- Every word is its nibble `op` in front of its address field. -/
theorem word_eq_nnn (w : Word) : fieldOp w ++ fieldNnn w = w := by
  refine word_ext fun i hi => ?_
  unfold fieldOp fieldNnn
  rw [BitVec.getLsbD_append, BitVec.getLsbD_extractLsb', BitVec.getLsbD_extractLsb']
  split
  · simp [*]
  · rw [show 12 + (i - 12) = i by omega]
    simp; omega

/-- Every byte field is its two nibbles. -/
theorem fieldKk_eq (w : Word) : fieldY w ++ fieldN w = fieldKk w := by
  refine BitVec.eq_of_getLsbD_eq fun i hi => ?_
  unfold fieldY fieldN fieldKk
  rw [BitVec.getLsbD_append, BitVec.getLsbD_extractLsb', BitVec.getLsbD_extractLsb', BitVec.getLsbD_extractLsb']
  split
  · simp [*]
  · rw [show 4 + (i - 4) = i by omega]
    simp [hi, show i - 4 < 4 by omega]

/-- Every word is its fields `op`, `x`, `kk` in a row. -/
theorem word_eq_xkk (w : Word) : fieldOp w ++ fieldX w ++ fieldKk w = w := by
  refine word_ext fun i hi => ?_
  unfold fieldOp fieldX fieldKk
  rw [BitVec.getLsbD_append, BitVec.getLsbD_append, BitVec.getLsbD_extractLsb', BitVec.getLsbD_extractLsb',
    BitVec.getLsbD_extractLsb']
  split
  · simp [*]
  · split
    · rw [show 8 + (i - 8) = i by omega]
      simp; omega
    · rw [show 12 + (i - 8 - 4) = i by omega]
      simp; omega

/-- Every word is its fields `op`, `x`, `y`, `n` in a row. -/
theorem word_eq_xyn (w : Word) : fieldOp w ++ fieldX w ++ fieldY w ++ fieldN w = w := by
  refine word_ext fun i hi => ?_
  unfold fieldOp fieldX fieldY fieldN
  rw [BitVec.getLsbD_append, BitVec.getLsbD_append, BitVec.getLsbD_append, BitVec.getLsbD_extractLsb',
    BitVec.getLsbD_extractLsb', BitVec.getLsbD_extractLsb', BitVec.getLsbD_extractLsb']
  split
  · simp [*]
  · split
    · rw [show 4 + (i - 4) = i by omega]
      simp; omega
    · split
      · rw [show 8 + (i - 4 - 4) = i by omega]
        simp; omega
      · rw [show 12 + (i - 4 - 4 - 4) = i by omega]
        simp; omega

end Sys2Proof
end

