-- ==== Sys2Proof/Laws/State.lean ====
section
/-! SUPPORT. The small lemmas of State: what each field and each accessor reads after each named update, so that no proof
unfolds a record update. -/

namespace Sys2Proof.Machine

variable (s : State)

/-! ### `State.setReg` -/

@[simp] theorem State.setReg_I (x : Nib) (b : Byte) : (s.setReg x b).I = s.I := rfl
@[simp] theorem State.setReg_pc (x : Nib) (b : Byte) : (s.setReg x b).pc = s.pc := rfl
@[simp] theorem State.setReg_sp (x : Nib) (b : Byte) : (s.setReg x b).sp = s.sp := rfl
@[simp] theorem State.setReg_stack (x : Nib) (b : Byte) : (s.setReg x b).stack = s.stack := rfl
@[simp] theorem State.setReg_DT (x : Nib) (b : Byte) : (s.setReg x b).DT = s.DT := rfl
@[simp] theorem State.setReg_ST (x : Nib) (b : Byte) : (s.setReg x b).ST = s.ST := rfl
@[simp] theorem State.setReg_keys (x : Nib) (b : Byte) : (s.setReg x b).keys = s.keys := rfl
@[simp] theorem State.setReg_wait (x : Nib) (b : Byte) : (s.setReg x b).wait = s.wait := rfl
@[simp] theorem State.setReg_dirty (x : Nib) (b : Byte) : (s.setReg x b).dirty = s.dirty := rfl
@[simp] theorem State.setReg_mem (x : Nib) (b : Byte) : (s.setReg x b).mem = s.mem := rfl
@[simp] theorem State.setReg_fb (x : Nib) (b : Byte) : (s.setReg x b).fb = s.fb := rfl
@[simp] theorem State.setReg_draws (x : Nib) (b : Byte) : (s.setReg x b).draws = s.draws := rfl
@[simp] theorem State.setReg_memRead (x : Nib) (b : Byte) (c : Nat) : (s.setReg x b).memRead c = s.memRead c := rfl
@[simp] theorem State.setReg_stackAt (x : Nib) (b : Byte) (j : Nat) : (s.setReg x b).stackAt j = s.stackAt j := rfl
@[simp] theorem State.setReg_ea (x : Nib) (b : Byte) (j : Nat) : (s.setReg x b).ea j = s.ea j := rfl

/-! ### `State.setI` -/

@[simp] theorem State.setI_V (v : Word) : (s.setI v).V = s.V := rfl
@[simp] theorem State.setI_I (v : Word) : (s.setI v).I = v := rfl
@[simp] theorem State.setI_pc (v : Word) : (s.setI v).pc = s.pc := rfl
@[simp] theorem State.setI_sp (v : Word) : (s.setI v).sp = s.sp := rfl
@[simp] theorem State.setI_stack (v : Word) : (s.setI v).stack = s.stack := rfl
@[simp] theorem State.setI_DT (v : Word) : (s.setI v).DT = s.DT := rfl
@[simp] theorem State.setI_ST (v : Word) : (s.setI v).ST = s.ST := rfl
@[simp] theorem State.setI_keys (v : Word) : (s.setI v).keys = s.keys := rfl
@[simp] theorem State.setI_wait (v : Word) : (s.setI v).wait = s.wait := rfl
@[simp] theorem State.setI_dirty (v : Word) : (s.setI v).dirty = s.dirty := rfl
@[simp] theorem State.setI_mem (v : Word) : (s.setI v).mem = s.mem := rfl
@[simp] theorem State.setI_fb (v : Word) : (s.setI v).fb = s.fb := rfl
@[simp] theorem State.setI_draws (v : Word) : (s.setI v).draws = s.draws := rfl
@[simp] theorem State.setI_reg (v : Word) (j : Nib) : (s.setI v).reg j = s.reg j := rfl
@[simp] theorem State.setI_regAt (v : Word) (j : Nat) : (s.setI v).regAt j = s.regAt j := rfl
@[simp] theorem State.setI_memRead (v : Word) (c : Nat) : (s.setI v).memRead c = s.memRead c := rfl
@[simp] theorem State.setI_stackAt (v : Word) (j : Nat) : (s.setI v).stackAt j = s.stackAt j := rfl

/-! ### `State.setPc` -/

@[simp] theorem State.setPc_V (v : Word) : (s.setPc v).V = s.V := rfl
@[simp] theorem State.setPc_I (v : Word) : (s.setPc v).I = s.I := rfl
@[simp] theorem State.setPc_pc (v : Word) : (s.setPc v).pc = v := rfl
@[simp] theorem State.setPc_sp (v : Word) : (s.setPc v).sp = s.sp := rfl
@[simp] theorem State.setPc_stack (v : Word) : (s.setPc v).stack = s.stack := rfl
@[simp] theorem State.setPc_DT (v : Word) : (s.setPc v).DT = s.DT := rfl
@[simp] theorem State.setPc_ST (v : Word) : (s.setPc v).ST = s.ST := rfl
@[simp] theorem State.setPc_keys (v : Word) : (s.setPc v).keys = s.keys := rfl
@[simp] theorem State.setPc_wait (v : Word) : (s.setPc v).wait = s.wait := rfl
@[simp] theorem State.setPc_dirty (v : Word) : (s.setPc v).dirty = s.dirty := rfl
@[simp] theorem State.setPc_mem (v : Word) : (s.setPc v).mem = s.mem := rfl
@[simp] theorem State.setPc_fb (v : Word) : (s.setPc v).fb = s.fb := rfl
@[simp] theorem State.setPc_draws (v : Word) : (s.setPc v).draws = s.draws := rfl
@[simp] theorem State.setPc_reg (v : Word) (j : Nib) : (s.setPc v).reg j = s.reg j := rfl
@[simp] theorem State.setPc_regAt (v : Word) (j : Nat) : (s.setPc v).regAt j = s.regAt j := rfl
@[simp] theorem State.setPc_memRead (v : Word) (c : Nat) : (s.setPc v).memRead c = s.memRead c := rfl
@[simp] theorem State.setPc_stackAt (v : Word) (j : Nat) : (s.setPc v).stackAt j = s.stackAt j := rfl
@[simp] theorem State.setPc_ea (v : Word) (j : Nat) : (s.setPc v).ea j = s.ea j := rfl

/-! ### `State.setDT` -/

@[simp] theorem State.setDT_V (v : Byte) : (s.setDT v).V = s.V := rfl
@[simp] theorem State.setDT_I (v : Byte) : (s.setDT v).I = s.I := rfl
@[simp] theorem State.setDT_pc (v : Byte) : (s.setDT v).pc = s.pc := rfl
@[simp] theorem State.setDT_sp (v : Byte) : (s.setDT v).sp = s.sp := rfl
@[simp] theorem State.setDT_stack (v : Byte) : (s.setDT v).stack = s.stack := rfl
@[simp] theorem State.setDT_DT (v : Byte) : (s.setDT v).DT = v := rfl
@[simp] theorem State.setDT_ST (v : Byte) : (s.setDT v).ST = s.ST := rfl
@[simp] theorem State.setDT_keys (v : Byte) : (s.setDT v).keys = s.keys := rfl
@[simp] theorem State.setDT_wait (v : Byte) : (s.setDT v).wait = s.wait := rfl
@[simp] theorem State.setDT_dirty (v : Byte) : (s.setDT v).dirty = s.dirty := rfl
@[simp] theorem State.setDT_mem (v : Byte) : (s.setDT v).mem = s.mem := rfl
@[simp] theorem State.setDT_fb (v : Byte) : (s.setDT v).fb = s.fb := rfl
@[simp] theorem State.setDT_draws (v : Byte) : (s.setDT v).draws = s.draws := rfl
@[simp] theorem State.setDT_reg (v : Byte) (j : Nib) : (s.setDT v).reg j = s.reg j := rfl
@[simp] theorem State.setDT_regAt (v : Byte) (j : Nat) : (s.setDT v).regAt j = s.regAt j := rfl
@[simp] theorem State.setDT_memRead (v : Byte) (c : Nat) : (s.setDT v).memRead c = s.memRead c := rfl
@[simp] theorem State.setDT_stackAt (v : Byte) (j : Nat) : (s.setDT v).stackAt j = s.stackAt j := rfl
@[simp] theorem State.setDT_ea (v : Byte) (j : Nat) : (s.setDT v).ea j = s.ea j := rfl

/-! ### `State.setST` -/

@[simp] theorem State.setST_V (v : Byte) : (s.setST v).V = s.V := rfl
@[simp] theorem State.setST_I (v : Byte) : (s.setST v).I = s.I := rfl
@[simp] theorem State.setST_pc (v : Byte) : (s.setST v).pc = s.pc := rfl
@[simp] theorem State.setST_sp (v : Byte) : (s.setST v).sp = s.sp := rfl
@[simp] theorem State.setST_stack (v : Byte) : (s.setST v).stack = s.stack := rfl
@[simp] theorem State.setST_DT (v : Byte) : (s.setST v).DT = s.DT := rfl
@[simp] theorem State.setST_ST (v : Byte) : (s.setST v).ST = v := rfl
@[simp] theorem State.setST_keys (v : Byte) : (s.setST v).keys = s.keys := rfl
@[simp] theorem State.setST_wait (v : Byte) : (s.setST v).wait = s.wait := rfl
@[simp] theorem State.setST_dirty (v : Byte) : (s.setST v).dirty = s.dirty := rfl
@[simp] theorem State.setST_mem (v : Byte) : (s.setST v).mem = s.mem := rfl
@[simp] theorem State.setST_fb (v : Byte) : (s.setST v).fb = s.fb := rfl
@[simp] theorem State.setST_draws (v : Byte) : (s.setST v).draws = s.draws := rfl
@[simp] theorem State.setST_reg (v : Byte) (j : Nib) : (s.setST v).reg j = s.reg j := rfl
@[simp] theorem State.setST_regAt (v : Byte) (j : Nat) : (s.setST v).regAt j = s.regAt j := rfl
@[simp] theorem State.setST_memRead (v : Byte) (c : Nat) : (s.setST v).memRead c = s.memRead c := rfl
@[simp] theorem State.setST_stackAt (v : Byte) (j : Nat) : (s.setST v).stackAt j = s.stackAt j := rfl
@[simp] theorem State.setST_ea (v : Byte) (j : Nat) : (s.setST v).ea j = s.ea j := rfl

/-! ### `State.setKeys` -/

@[simp] theorem State.setKeys_V (v : Word) : (s.setKeys v).V = s.V := rfl
@[simp] theorem State.setKeys_I (v : Word) : (s.setKeys v).I = s.I := rfl
@[simp] theorem State.setKeys_pc (v : Word) : (s.setKeys v).pc = s.pc := rfl
@[simp] theorem State.setKeys_sp (v : Word) : (s.setKeys v).sp = s.sp := rfl
@[simp] theorem State.setKeys_stack (v : Word) : (s.setKeys v).stack = s.stack := rfl
@[simp] theorem State.setKeys_DT (v : Word) : (s.setKeys v).DT = s.DT := rfl
@[simp] theorem State.setKeys_ST (v : Word) : (s.setKeys v).ST = s.ST := rfl
@[simp] theorem State.setKeys_keys (v : Word) : (s.setKeys v).keys = v := rfl
@[simp] theorem State.setKeys_wait (v : Word) : (s.setKeys v).wait = s.wait := rfl
@[simp] theorem State.setKeys_dirty (v : Word) : (s.setKeys v).dirty = s.dirty := rfl
@[simp] theorem State.setKeys_mem (v : Word) : (s.setKeys v).mem = s.mem := rfl
@[simp] theorem State.setKeys_fb (v : Word) : (s.setKeys v).fb = s.fb := rfl
@[simp] theorem State.setKeys_draws (v : Word) : (s.setKeys v).draws = s.draws := rfl
@[simp] theorem State.setKeys_reg (v : Word) (j : Nib) : (s.setKeys v).reg j = s.reg j := rfl
@[simp] theorem State.setKeys_regAt (v : Word) (j : Nat) : (s.setKeys v).regAt j = s.regAt j := rfl
@[simp] theorem State.setKeys_memRead (v : Word) (c : Nat) : (s.setKeys v).memRead c = s.memRead c := rfl
@[simp] theorem State.setKeys_stackAt (v : Word) (j : Nat) : (s.setKeys v).stackAt j = s.stackAt j := rfl
@[simp] theorem State.setKeys_ea (v : Word) (j : Nat) : (s.setKeys v).ea j = s.ea j := rfl

/-! ### `State.setWait` -/

@[simp] theorem State.setWait_V (v : Bool) : (s.setWait v).V = s.V := rfl
@[simp] theorem State.setWait_I (v : Bool) : (s.setWait v).I = s.I := rfl
@[simp] theorem State.setWait_pc (v : Bool) : (s.setWait v).pc = s.pc := rfl
@[simp] theorem State.setWait_sp (v : Bool) : (s.setWait v).sp = s.sp := rfl
@[simp] theorem State.setWait_stack (v : Bool) : (s.setWait v).stack = s.stack := rfl
@[simp] theorem State.setWait_DT (v : Bool) : (s.setWait v).DT = s.DT := rfl
@[simp] theorem State.setWait_ST (v : Bool) : (s.setWait v).ST = s.ST := rfl
@[simp] theorem State.setWait_keys (v : Bool) : (s.setWait v).keys = s.keys := rfl
@[simp] theorem State.setWait_wait (v : Bool) : (s.setWait v).wait = v := rfl
@[simp] theorem State.setWait_dirty (v : Bool) : (s.setWait v).dirty = s.dirty := rfl
@[simp] theorem State.setWait_mem (v : Bool) : (s.setWait v).mem = s.mem := rfl
@[simp] theorem State.setWait_fb (v : Bool) : (s.setWait v).fb = s.fb := rfl
@[simp] theorem State.setWait_draws (v : Bool) : (s.setWait v).draws = s.draws := rfl
@[simp] theorem State.setWait_reg (v : Bool) (j : Nib) : (s.setWait v).reg j = s.reg j := rfl
@[simp] theorem State.setWait_regAt (v : Bool) (j : Nat) : (s.setWait v).regAt j = s.regAt j := rfl
@[simp] theorem State.setWait_memRead (v : Bool) (c : Nat) : (s.setWait v).memRead c = s.memRead c := rfl
@[simp] theorem State.setWait_stackAt (v : Bool) (j : Nat) : (s.setWait v).stackAt j = s.stackAt j := rfl
@[simp] theorem State.setWait_ea (v : Bool) (j : Nat) : (s.setWait v).ea j = s.ea j := rfl

/-! ### `State.setDirty` -/

@[simp] theorem State.setDirty_V (v : Bool) : (s.setDirty v).V = s.V := rfl
@[simp] theorem State.setDirty_I (v : Bool) : (s.setDirty v).I = s.I := rfl
@[simp] theorem State.setDirty_pc (v : Bool) : (s.setDirty v).pc = s.pc := rfl
@[simp] theorem State.setDirty_sp (v : Bool) : (s.setDirty v).sp = s.sp := rfl
@[simp] theorem State.setDirty_stack (v : Bool) : (s.setDirty v).stack = s.stack := rfl
@[simp] theorem State.setDirty_DT (v : Bool) : (s.setDirty v).DT = s.DT := rfl
@[simp] theorem State.setDirty_ST (v : Bool) : (s.setDirty v).ST = s.ST := rfl
@[simp] theorem State.setDirty_keys (v : Bool) : (s.setDirty v).keys = s.keys := rfl
@[simp] theorem State.setDirty_wait (v : Bool) : (s.setDirty v).wait = s.wait := rfl
@[simp] theorem State.setDirty_dirty (v : Bool) : (s.setDirty v).dirty = v := rfl
@[simp] theorem State.setDirty_mem (v : Bool) : (s.setDirty v).mem = s.mem := rfl
@[simp] theorem State.setDirty_fb (v : Bool) : (s.setDirty v).fb = s.fb := rfl
@[simp] theorem State.setDirty_draws (v : Bool) : (s.setDirty v).draws = s.draws := rfl
@[simp] theorem State.setDirty_reg (v : Bool) (j : Nib) : (s.setDirty v).reg j = s.reg j := rfl
@[simp] theorem State.setDirty_regAt (v : Bool) (j : Nat) : (s.setDirty v).regAt j = s.regAt j := rfl
@[simp] theorem State.setDirty_memRead (v : Bool) (c : Nat) : (s.setDirty v).memRead c = s.memRead c := rfl
@[simp] theorem State.setDirty_stackAt (v : Bool) (j : Nat) : (s.setDirty v).stackAt j = s.stackAt j := rfl
@[simp] theorem State.setDirty_ea (v : Bool) (j : Nat) : (s.setDirty v).ea j = s.ea j := rfl

/-! ### `State.setFb` -/

@[simp] theorem State.setFb_V (v : Vector Byte 256) : (s.setFb v).V = s.V := rfl
@[simp] theorem State.setFb_I (v : Vector Byte 256) : (s.setFb v).I = s.I := rfl
@[simp] theorem State.setFb_pc (v : Vector Byte 256) : (s.setFb v).pc = s.pc := rfl
@[simp] theorem State.setFb_sp (v : Vector Byte 256) : (s.setFb v).sp = s.sp := rfl
@[simp] theorem State.setFb_stack (v : Vector Byte 256) : (s.setFb v).stack = s.stack := rfl
@[simp] theorem State.setFb_DT (v : Vector Byte 256) : (s.setFb v).DT = s.DT := rfl
@[simp] theorem State.setFb_ST (v : Vector Byte 256) : (s.setFb v).ST = s.ST := rfl
@[simp] theorem State.setFb_keys (v : Vector Byte 256) : (s.setFb v).keys = s.keys := rfl
@[simp] theorem State.setFb_wait (v : Vector Byte 256) : (s.setFb v).wait = s.wait := rfl
@[simp] theorem State.setFb_dirty (v : Vector Byte 256) : (s.setFb v).dirty = s.dirty := rfl
@[simp] theorem State.setFb_mem (v : Vector Byte 256) : (s.setFb v).mem = s.mem := rfl
@[simp] theorem State.setFb_fb (v : Vector Byte 256) : (s.setFb v).fb = v := rfl
@[simp] theorem State.setFb_draws (v : Vector Byte 256) : (s.setFb v).draws = s.draws := rfl
@[simp] theorem State.setFb_reg (v : Vector Byte 256) (j : Nib) : (s.setFb v).reg j = s.reg j := rfl
@[simp] theorem State.setFb_regAt (v : Vector Byte 256) (j : Nat) : (s.setFb v).regAt j = s.regAt j := rfl
@[simp] theorem State.setFb_memRead (v : Vector Byte 256) (c : Nat) : (s.setFb v).memRead c = s.memRead c := rfl
@[simp] theorem State.setFb_stackAt (v : Vector Byte 256) (j : Nat) : (s.setFb v).stackAt j = s.stackAt j := rfl
@[simp] theorem State.setFb_ea (v : Vector Byte 256) (j : Nat) : (s.setFb v).ea j = s.ea j := rfl

/-! ### `State.memWrite` -/

@[simp] theorem State.memWrite_V (a : Nat) (b : Byte) : (s.memWrite a b).V = s.V := rfl
@[simp] theorem State.memWrite_I (a : Nat) (b : Byte) : (s.memWrite a b).I = s.I := rfl
@[simp] theorem State.memWrite_pc (a : Nat) (b : Byte) : (s.memWrite a b).pc = s.pc := rfl
@[simp] theorem State.memWrite_sp (a : Nat) (b : Byte) : (s.memWrite a b).sp = s.sp := rfl
@[simp] theorem State.memWrite_stack (a : Nat) (b : Byte) : (s.memWrite a b).stack = s.stack := rfl
@[simp] theorem State.memWrite_DT (a : Nat) (b : Byte) : (s.memWrite a b).DT = s.DT := rfl
@[simp] theorem State.memWrite_ST (a : Nat) (b : Byte) : (s.memWrite a b).ST = s.ST := rfl
@[simp] theorem State.memWrite_keys (a : Nat) (b : Byte) : (s.memWrite a b).keys = s.keys := rfl
@[simp] theorem State.memWrite_wait (a : Nat) (b : Byte) : (s.memWrite a b).wait = s.wait := rfl
@[simp] theorem State.memWrite_dirty (a : Nat) (b : Byte) : (s.memWrite a b).dirty = s.dirty := rfl
@[simp] theorem State.memWrite_mem (a : Nat) (b : Byte) : (s.memWrite a b).mem = Memory.write s.mem (a % 4096) b := rfl
@[simp] theorem State.memWrite_fb (a : Nat) (b : Byte) : (s.memWrite a b).fb = s.fb := rfl
@[simp] theorem State.memWrite_draws (a : Nat) (b : Byte) : (s.memWrite a b).draws = s.draws := rfl
@[simp] theorem State.memWrite_reg (a : Nat) (b : Byte) (j : Nib) : (s.memWrite a b).reg j = s.reg j := rfl
@[simp] theorem State.memWrite_regAt (a : Nat) (b : Byte) (j : Nat) : (s.memWrite a b).regAt j = s.regAt j := rfl
@[simp] theorem State.memWrite_stackAt (a : Nat) (b : Byte) (j : Nat) : (s.memWrite a b).stackAt j = s.stackAt j := rfl
@[simp] theorem State.memWrite_ea (a : Nat) (b : Byte) (j : Nat) : (s.memWrite a b).ea j = s.ea j := rfl

/-! ### The register file -/

/-- A register after a register write: the written value in the written register, every other one unchanged. -/
@[simp] theorem State.reg_setReg (x j : Nib) (b : Byte) : (s.setReg x b).reg j = if j = x then b else s.reg j := by
  simp only [State.reg, State.setReg, Vector.getElem_set]
  by_cases h : j = x
  · simp [h]
  · have hn : x.toNat ≠ j.toNat := fun e => h (BitVec.eq_of_toNat_eq e.symm)
    simp [h, hn]

theorem State.reg_setReg_same (x : Nib) (b : Byte) : (s.setReg x b).reg x = b := by simp

theorem State.reg_setReg_other {x j : Nib} (b : Byte) (h : j ≠ x) : (s.setReg x b).reg j = s.reg j := by
  simp [h]

/-- Two states whose sixteen registers agree have the same register file. -/
theorem State.V_ext {s t : State} (h : ∀ j : Nib, t.reg j = s.reg j) : t.V = s.V := by
  apply Vector.ext
  intro i hi
  have hx := h (BitVec.ofNat 4 i)
  simpa [State.reg, Nat.mod_eq_of_lt hi] using hx

/-! ### The two writes of a flag-producing instruction, and the write of a logic operation -/

/-- R23: `VF` holds the flag, also when it is the destination; the destination holds the result. -/
@[simp] theorem State.reg_setResultFlag (x j : Nib) (r f : Byte) :
    (s.setResultFlag x r f).reg j = if j = vf then f else if j = x then r else s.reg j := by
  simp only [State.setResultFlag, State.reg_setReg]

/-- With the parameters of this machine a logic operation writes its destination and nothing else (decision D5). -/
@[simp] theorem State.setLogicResult_eq (x : Nib) (r : Byte) : s.setLogicResult x r = s.setReg x r := rfl

@[simp] theorem State.setResultFlag_I (x : Nib) (r f : Byte) : (s.setResultFlag x r f).I = s.I := rfl
@[simp] theorem State.setResultFlag_pc (x : Nib) (r f : Byte) : (s.setResultFlag x r f).pc = s.pc := rfl
@[simp] theorem State.setResultFlag_sp (x : Nib) (r f : Byte) : (s.setResultFlag x r f).sp = s.sp := rfl
@[simp] theorem State.setResultFlag_stack (x : Nib) (r f : Byte) : (s.setResultFlag x r f).stack = s.stack := rfl
@[simp] theorem State.setResultFlag_DT (x : Nib) (r f : Byte) : (s.setResultFlag x r f).DT = s.DT := rfl
@[simp] theorem State.setResultFlag_ST (x : Nib) (r f : Byte) : (s.setResultFlag x r f).ST = s.ST := rfl
@[simp] theorem State.setResultFlag_keys (x : Nib) (r f : Byte) : (s.setResultFlag x r f).keys = s.keys := rfl
@[simp] theorem State.setResultFlag_wait (x : Nib) (r f : Byte) : (s.setResultFlag x r f).wait = s.wait := rfl
@[simp] theorem State.setResultFlag_dirty (x : Nib) (r f : Byte) : (s.setResultFlag x r f).dirty = s.dirty := rfl
@[simp] theorem State.setResultFlag_mem (x : Nib) (r f : Byte) : (s.setResultFlag x r f).mem = s.mem := rfl
@[simp] theorem State.setResultFlag_fb (x : Nib) (r f : Byte) : (s.setResultFlag x r f).fb = s.fb := rfl
@[simp] theorem State.setResultFlag_draws (x : Nib) (r f : Byte) : (s.setResultFlag x r f).draws = s.draws := rfl
@[simp] theorem State.setResultFlag_stackAt (x : Nib) (r f : Byte) (j : Nat) :
    (s.setResultFlag x r f).stackAt j = s.stackAt j := rfl
@[simp] theorem State.setResultFlag_memRead (x : Nib) (r f : Byte) (c : Nat) :
    (s.setResultFlag x r f).memRead c = s.memRead c := rfl

/-! ### `State.drawByte` -/

@[simp] theorem State.drawByte_fst : s.drawByte.1 = Config.draw s.draws := rfl
@[simp] theorem State.drawByte_draws : s.drawByte.2.draws = s.draws + 1 := rfl
@[simp] theorem State.drawByte_reg (j : Nib) : s.drawByte.2.reg j = s.reg j := rfl
@[simp] theorem State.drawByte_stackAt (j : Nat) : s.drawByte.2.stackAt j = s.stackAt j := rfl
@[simp] theorem State.drawByte_memRead (c : Nat) : s.drawByte.2.memRead c = s.memRead c := rfl
@[simp] theorem State.drawByte_V : s.drawByte.2.V = s.V := rfl
@[simp] theorem State.drawByte_I : s.drawByte.2.I = s.I := rfl
@[simp] theorem State.drawByte_pc : s.drawByte.2.pc = s.pc := rfl
@[simp] theorem State.drawByte_sp : s.drawByte.2.sp = s.sp := rfl
@[simp] theorem State.drawByte_stack : s.drawByte.2.stack = s.stack := rfl
@[simp] theorem State.drawByte_DT : s.drawByte.2.DT = s.DT := rfl
@[simp] theorem State.drawByte_ST : s.drawByte.2.ST = s.ST := rfl
@[simp] theorem State.drawByte_keys : s.drawByte.2.keys = s.keys := rfl
@[simp] theorem State.drawByte_wait : s.drawByte.2.wait = s.wait := rfl
@[simp] theorem State.drawByte_dirty : s.drawByte.2.dirty = s.dirty := rfl
@[simp] theorem State.drawByte_mem : s.drawByte.2.mem = s.mem := rfl
@[simp] theorem State.drawByte_fb : s.drawByte.2.fb = s.fb := rfl

/-! ### `State.skipIf` (R129) -/

/-- A skip moves `pc` by 2 when its condition holds and changes nothing else. -/
@[simp] theorem State.skipIf_eq (c : Bool) : s.skipIf c = s.setPc (if c then s.pc + 2 else s.pc) := by
  cases c <;> rfl

/-! ### `State.tick` (R250) -/

/-- A tick counts both timers down and changes nothing else. -/
theorem State.tick_eq : s.tick = (s.setDT (countDown s.DT)).setST (countDown s.ST) := rfl

@[simp] theorem State.tick_DT : s.tick.DT = countDown s.DT := rfl
@[simp] theorem State.tick_ST : s.tick.ST = countDown s.ST := rfl
@[simp] theorem State.tick_reg (j : Nib) : s.tick.reg j = s.reg j := rfl
@[simp] theorem State.tick_stackAt (j : Nat) : s.tick.stackAt j = s.stackAt j := rfl
@[simp] theorem State.tick_memRead (c : Nat) : s.tick.memRead c = s.memRead c := rfl
@[simp] theorem fetchWord_tick : fetchWord s.tick = fetchWord s := rfl
@[simp] theorem State.tick_V : s.tick.V = s.V := rfl
@[simp] theorem State.tick_I : s.tick.I = s.I := rfl
@[simp] theorem State.tick_pc : s.tick.pc = s.pc := rfl
@[simp] theorem State.tick_sp : s.tick.sp = s.sp := rfl
@[simp] theorem State.tick_stack : s.tick.stack = s.stack := rfl
@[simp] theorem State.tick_keys : s.tick.keys = s.keys := rfl
@[simp] theorem State.tick_wait : s.tick.wait = s.wait := rfl
@[simp] theorem State.tick_dirty : s.tick.dirty = s.dirty := rfl
@[simp] theorem State.tick_mem : s.tick.mem = s.mem := rfl
@[simp] theorem State.tick_fb : s.tick.fb = s.fb := rfl
@[simp] theorem State.tick_draws : s.tick.draws = s.draws := rfl

/-! ### The cycle around an instruction, with the parameters of this machine (decisions D13, D14) -/

/-- The start of a cycle advances `pc` by 2 and changes nothing else. -/
@[simp] theorem beginCycle_eq : beginCycle s = s.setPc (s.pc + 2) := rfl

/-- The timers tick in every cycle. -/
@[simp] theorem timersTick_eq (d : Option Instr) : timersTick d s = true := rfl

@[simp] theorem endCycle_next (d : Option Instr) (t : State) : endCycle d s (.next t) = .next t.tick := rfl

/-- A cycle that answers a next state answers the ticked state of its instruction. -/
theorem endCycle_cases {d : Option Instr} {s : State} {o : Result} {t : State} (h : endCycle d s o = .next t) :
    ∃ u, o = .next u ∧ t = u.tick := by
  cases o with
  | next u => exact ⟨u, rfl, by simpa using h.symm⟩
  | fault r => cases r
  | refused r => cases h

/-! ### The operand forms, with the parameters of this machine (decisions D6, D7, D8, D12) -/

@[simp] theorem shiftOperand_eq (x y : Nib) : shiftOperand x y s = s.reg x := rfl
@[simp] theorem State.advanceBlockI_eq (x : Nib) : s.advanceBlockI x = s := rfl
@[simp] theorem checkRange_eq (first count : Nat) (r : Result) : checkRange first count r = r := rfl
@[simp] theorem checkKeyIndex_eq (x : Nib) (r : Result) : checkKeyIndex x s r = r := rfl
theorem keySet_eq (x : Nib) : keySet x s = s.keys.getLsbD (lowNibble (s.reg x)).toNat := rfl

/-! ### The call stack (R29) -/

/-- Everything a push can do: refused on a full stack, else the value in slot `sp`, `sp` up by one, nothing else changed. -/
theorem State.push_cases (v : Word) :
    (s.push v = none ∧ s.sp.val = 16) ∨
    ∃ (h : s.sp.val < 16) (k : Fin 17), k.val = s.sp.val + 1 ∧
      s.push v = some { s with stack := s.stack.set s.sp.val v h, sp := k } := by
  unfold State.push
  by_cases h : s.sp.val < 16
  · exact .inr ⟨h, ⟨s.sp.val + 1, Nat.succ_lt_succ h⟩, rfl, by simp [h]⟩
  · exact .inl ⟨by simp [h], by omega⟩

/-- A stack entry after one entry is written. -/
theorem State.stackAt_set (i j : Nat) (v : Word) (k : Fin 17) (h : i < 16) :
    ({ s with stack := s.stack.set i v h, sp := k } : State).stackAt j = if j = i then v else s.stackAt j := by
  simp only [State.stackAt, Vector.getElem?_set]
  by_cases hj : j = i
  · simp [hj]
  · simp [hj, Ne.symm hj]

/-- Everything a pop can do: refused on an empty stack, else the value of slot `sp - 1`, `sp` down by one, nothing else
changed. -/
theorem State.pop_cases :
    (s.pop = none ∧ s.sp.val = 0) ∨
    ∃ k : Fin 17, k.val + 1 = s.sp.val ∧ s.pop = some (s.stackAt k.val, { s with sp := k }) := by
  unfold State.pop
  by_cases h : s.sp.val = 0
  · exact .inl ⟨by simp [h], h⟩
  · exact .inr ⟨⟨s.sp.val - 1, by omega⟩, by simp only []; omega, by simp [h]⟩

end Sys2Proof.Machine
end

