-- ==== Sys2Proof/Laws/Memory.lean ====
section
/-! SUPPORT. The laws of memory: a read after a write, the canonical form and that every memory operation keeps it, and what
the block store leaves in memory. -/

namespace Sys2Proof.Machine

/-! ### The canonical form -/

theorem Memory.wf_nil : Memory.wf [] := ⟨List.Pairwise.nil, by simp⟩

theorem Memory.wf_tail {c : Host.Cell} {m : Memory} (h : Memory.wf (c :: m)) : Memory.wf m :=
  ⟨(List.pairwise_cons.1 h.1).2, fun d hd => h.2 d (List.mem_cons_of_mem _ hd)⟩

/-- Every address of the tail of a canonical list lies above the head's. -/
theorem Memory.wf_head_lt {c d : Host.Cell} {m : Memory} (h : Memory.wf (c :: m)) (hd : d ∈ m) : c.1 < d.1 :=
  (List.pairwise_cons.1 h.1).1 d hd

/-- An address that no cell names reads as it does after reset. -/
theorem Memory.read_of_not_listed {m : Memory} {a : Nat} (h : ∀ c ∈ m, c.1 ≠ a) : Memory.read m a = unlisted a := by
  induction m with
  | nil => rfl
  | cons c m ih =>
    simp only [Memory.read, if_neg (h c List.mem_cons_self)]
    exact ih fun d hd => h d (List.mem_cons_of_mem _ hd)

/-- `put` in front of a canonical list whose addresses all lie above keeps the form. -/
theorem Memory.wf_put {a : Nat} {b : Byte} {m : Memory} (hm : Memory.wf m) (ha : a < 4096) (hlt : ∀ c ∈ m, a < c.1) :
    Memory.wf (Memory.put a b m) := by
  unfold Memory.put
  split
  · exact hm
  · rename_i hb
    refine ⟨List.pairwise_cons.2 ⟨fun c hc => hlt c hc, hm.1⟩, fun c hc => ?_⟩
    rcases List.mem_cons.1 hc with rfl | hc
    · exact ⟨ha, hb⟩
    · exact hm.2 c hc

/-- Every cell of a list after a write is the written one or was there before. -/
theorem Memory.mem_write {m : Memory} {a : Nat} {b : Byte} {c : Host.Cell} (h : c ∈ Memory.write m a b) :
    c = (a, b) ∨ c ∈ m := by
  have put_cases : ∀ {n : Memory}, c ∈ Memory.put a b n → c = (a, b) ∨ c ∈ n := by
    intro n hn
    unfold Memory.put at hn
    split at hn
    · exact .inr hn
    · exact List.mem_cons.1 hn
  induction m with
  | nil => exact put_cases h
  | cons d m ih =>
    simp only [Memory.write] at h
    split at h
    · exact put_cases h
    · split at h
      · exact (put_cases h).imp_right fun hc => List.mem_cons_of_mem _ hc
      · rcases List.mem_cons.1 h with rfl | h
        · exact .inr List.mem_cons_self
        · exact (ih h).imp_right fun hc => List.mem_cons_of_mem _ hc

/-- A write to an address of the array keeps the canonical form. -/
theorem Memory.wf_write {m : Memory} {a : Nat} (b : Byte) (hm : Memory.wf m) (ha : a < 4096) :
    Memory.wf (Memory.write m a b) := by
  induction m with
  | nil => exact Memory.wf_put hm ha (by simp)
  | cons d m ih =>
    simp only [Memory.write]
    split
    · rename_i hlt
      refine Memory.wf_put hm ha fun c hc => ?_
      rcases List.mem_cons.1 hc with rfl | hc
      · exact hlt
      · exact Nat.lt_trans hlt (Memory.wf_head_lt hm hc)
    · rename_i hge
      split
      · rename_i heq
        exact Memory.wf_put (Memory.wf_tail hm) ha fun c hc => heq ▸ Memory.wf_head_lt hm hc
      · rename_i hne
        have hw := ih (Memory.wf_tail hm)
        refine ⟨List.pairwise_cons.2 ⟨fun c hc => ?_, hw.1⟩, fun c hc => ?_⟩
        · rcases Memory.mem_write hc with rfl | hc
          · exact Nat.lt_of_le_of_ne (Nat.le_of_not_lt hge) (Ne.symm hne)
          · exact Memory.wf_head_lt hm hc
        · rcases List.mem_cons.1 hc with rfl | hc
          · exact hm.2 c List.mem_cons_self
          · exact hw.2 c hc

/-! ### Reading -/

theorem Memory.read_put {a c : Nat} {b : Byte} {m : Memory} (h : ∀ d ∈ m, d.1 ≠ a) :
    Memory.read (Memory.put a b m) c = if c = a then b else Memory.read m c := by
  unfold Memory.put
  by_cases hb : b = unlisted a
  · rw [if_pos hb]
    split
    · rename_i hc
      rw [hc, hb]
      exact Memory.read_of_not_listed h
    · rfl
  · rw [if_neg hb]
    by_cases hc : c = a
    · simp [Memory.read, hc]
    · simp [Memory.read, hc, Ne.symm hc]

/-- A read after a write: the byte written at its address, every other address as before. -/
theorem Memory.read_write {m : Memory} (a : Nat) (b : Byte) (c : Nat) (hm : Memory.wf m) :
    Memory.read (Memory.write m a b) c = if c = a then b else Memory.read m c := by
  induction m with
  | nil => exact Memory.read_put (by simp)
  | cons d m ih =>
    simp only [Memory.write]
    split
    · rename_i hlt
      refine Memory.read_put fun e he => ?_
      rcases List.mem_cons.1 he with rfl | he
      · exact Nat.ne_of_gt hlt
      · exact Nat.ne_of_gt (Nat.lt_trans hlt (Memory.wf_head_lt hm he))
    · split
      · rename_i heq
        rw [Memory.read_put fun e he => heq ▸ Nat.ne_of_gt (Memory.wf_head_lt hm he)]
        by_cases hc : c = a
        · simp [hc]
        · simp [Memory.read, hc, ← heq, Ne.symm hc]
      · rename_i hne
        simp only [Memory.read, ih (Memory.wf_tail hm)]
        by_cases hc : d.1 = c
        · rw [if_pos hc, if_pos hc, if_neg (hc ▸ Ne.symm hne)]
        · simp [hc]

/-- Two canonical memories that read alike are the same list. -/
theorem Memory.ext_read {m n : Memory} (hm : Memory.wf m) (hn : Memory.wf n)
    (h : ∀ a, Memory.read m a = Memory.read n a) : m = n := by
  induction m generalizing n with
  | nil =>
    cases n with
    | nil => rfl
    | cons d n =>
      have := h d.1
      simp only [Memory.read, if_true] at this
      exact absurd this.symm (hn.2 d List.mem_cons_self).2
  | cons c m ih =>
    cases n with
    | nil =>
      have := h c.1
      simp only [Memory.read, if_true] at this
      exact absurd this (hm.2 c List.mem_cons_self).2
    | cons d n =>
      have below : ∀ {p : Memory} {e : Host.Cell} {a : Nat}, Memory.wf (e :: p) → a < e.1 →
          Memory.read (e :: p) a = unlisted a := by
        intro p e a hw ha
        refine Memory.read_of_not_listed fun f hf => ?_
        rcases List.mem_cons.1 hf with rfl | hf
        · exact Nat.ne_of_gt ha
        · exact Nat.ne_of_gt (Nat.lt_trans ha (Memory.wf_head_lt hw hf))
      have hcd : c.1 = d.1 := by
        rcases Nat.lt_trichotomy c.1 d.1 with hlt | heq | hgt
        · have := h c.1
          rw [below hn hlt] at this
          simp only [Memory.read, if_true] at this
          exact absurd this (hm.2 c List.mem_cons_self).2
        · exact heq
        · have := h d.1
          rw [below hm hgt] at this
          simp only [Memory.read, if_true] at this
          exact absurd this.symm (hn.2 d List.mem_cons_self).2
      have hv : c.2 = d.2 := by
        have := h c.1
        simpa [Memory.read, hcd] using this
      have heq : c = d := Prod.ext hcd hv
      subst heq
      refine congrArg _ (ih (Memory.wf_tail hm) (Memory.wf_tail hn) fun a => ?_)
      by_cases ha : c.1 = a
      · subst ha
        rw [Memory.read_of_not_listed fun e he => Nat.ne_of_gt (Memory.wf_head_lt hm he),
          Memory.read_of_not_listed fun e he => Nat.ne_of_gt (Memory.wf_head_lt hn he)]
      · simpa [Memory.read, ha] using h a

/-! ### `MemRead` and `MemWrite` -/

/-- `MemWrite` keeps the canonical form. -/
theorem State.memWrite_wf (s : State) (a : Nat) (b : Byte) (hm : s.mem.wf) : (s.memWrite a b).mem.wf :=
  Memory.wf_write b hm (Nat.mod_lt _ (by decide))

/-- `MemRead` after `MemWrite`: the byte written where the addresses agree modulo 4096, every other byte as before. -/
theorem State.memRead_memWrite (s : State) (a c : Nat) (b : Byte) (hm : s.mem.wf) :
    (s.memWrite a b).memRead c = if c % 4096 = a % 4096 then b else s.memRead c :=
  Memory.read_write _ _ _ hm

theorem State.memRead_memWrite_same (s : State) {a c : Nat} (b : Byte) (hm : s.mem.wf) (h : c % 4096 = a % 4096) :
    (s.memWrite a b).memRead c = b := by
  rw [s.memRead_memWrite a c b hm, if_pos h]

theorem State.memRead_memWrite_other (s : State) {a c : Nat} (b : Byte) (hm : s.mem.wf) (h : c % 4096 ≠ a % 4096) :
    (s.memWrite a b).memRead c = s.memRead c := by
  rw [s.memRead_memWrite a c b hm, if_neg h]

/-- `MemRead` sees an address modulo 4096. -/
theorem State.memRead_mod (s : State) (a : Nat) : s.memRead (a % 4096) = s.memRead a := by
  simp [State.memRead]

/-- Right after reset every address reads as its reset contents (R69). -/
theorem State.memRead_reset (a : Nat) : State.reset.memRead a = unlisted (a % 4096) := rfl

/-- A fetch sees the memory and `pc`, nothing else of the state. -/
theorem fetchWord_congr {s t : State} (hm : t.mem = s.mem) (hp : t.pc = s.pc) : fetchWord t = fetchWord s := by
  simp only [fetchWord, State.memRead2, State.memRead, hm, hp]

/-! ### The block store (R186) -/

/-- The block store changes memory and nothing else. -/
theorem State.storeBlock_eq (s : State) (k : Nat) : s.storeBlock k = { s with mem := (s.storeBlock k).mem } := by
  induction k with
  | zero => rfl
  | succ j ih => simp only [State.storeBlock]; rw [ih]; rfl

theorem State.storeBlock_wf (s : State) (k : Nat) (hm : s.mem.wf) : (s.storeBlock k).mem.wf := by
  induction k with
  | zero => exact hm
  | succ j ih => exact State.memWrite_wf _ _ _ ih

/-- Outside the stored addresses the block store leaves every byte. -/
theorem State.memRead_storeBlock_other (s : State) (k a : Nat) (hm : s.mem.wf)
    (ha : ∀ j < k, a % 4096 ≠ s.ea j % 4096) : (s.storeBlock k).memRead a = s.memRead a := by
  induction k with
  | zero => rfl
  | succ j ih =>
    simp only [State.storeBlock]
    rw [State.memRead_memWrite _ _ _ _ (State.storeBlock_wf s j hm), if_neg (ha j (Nat.lt_succ_self j)),
      ih fun i hi => ha i (Nat.lt_succ_of_lt hi)]

/-- The block store puts `V[j]` at `I + j`, for a block that fits below 4096. -/
theorem State.memRead_storeBlock_at (s : State) (k j : Nat) (hm : s.mem.wf) (hj : j < k)
    (hfit : s.I.toNat + k ≤ 4096) : (s.storeBlock k).memRead (s.ea j) = s.regAt j := by
  induction k with
  | zero => omega
  | succ i ih =>
    simp only [State.storeBlock]
    rw [State.memRead_memWrite _ _ _ _ (State.storeBlock_wf s i hm)]
    by_cases hji : j = i
    · simp [hji]
    · have hne : s.ea j % 4096 ≠ s.ea i % 4096 := by
        simp only [State.ea]
        omega
      rw [if_neg hne]
      exact ih (by omega) (by omega)

/-- A block store sees `I`, the register file and memory, nothing else of the state. -/
theorem State.storeBlock_mem_congr {s t : State} (hI : t.I = s.I) (hV : t.V = s.V) (hm : t.mem = s.mem) (k : Nat) :
    (t.storeBlock k).mem = (s.storeBlock k).mem := by
  induction k with
  | zero => exact hm
  | succ j ih => simp only [State.storeBlock, State.memWrite_mem, ih, State.ea, State.regAt, State.reg, hI, hV]

/-! ### The host's load (R274) -/

/-- Words are loaded as two bytes each. -/
@[simp] theorem length_bytesOfWords (ws : List Word) : (bytesOfWords ws).length = 2 * ws.length := by
  induction ws with
  | nil => rfl
  | cons w rest ih =>
    simp only [bytesOfWords, List.length_cons, ih]
    omega

/-- The byte at an even place is the high byte of its word. -/
theorem getD_bytesOfWords_even (ws : List Word) (i : Nat) : (bytesOfWords ws).getD (2 * i) 0 = wordHi (ws.getD i 0) := by
  induction ws generalizing i with
  | nil => simp [bytesOfWords, wordHi]
  | cons w rest ih =>
    cases i with
    | zero => rfl
    | succ i => exact ih i

/-- The byte at an odd place is the low byte of its word. -/
theorem getD_bytesOfWords_odd (ws : List Word) (i : Nat) : (bytesOfWords ws).getD (2 * i + 1) 0 = wordLo (ws.getD i 0) := by
  induction ws generalizing i with
  | nil => rfl
  | cons w rest ih =>
    cases i with
    | zero => rfl
    | succ i => exact ih i

theorem State.loadBytes_wf (s : State) (off : Nat) (bytes : List Byte) (hm : s.mem.wf) :
    (s.loadBytes off bytes).mem.wf := by
  induction bytes generalizing s off with
  | nil => exact hm
  | cons b rest ih => exact ih _ _ (State.memWrite_wf s off b hm)

/-- A load changes memory and nothing else. -/
theorem State.loadBytes_eq (s : State) (off : Nat) (bytes : List Byte) :
    s.loadBytes off bytes = { s with mem := (s.loadBytes off bytes).mem } := by
  induction bytes generalizing s off with
  | nil => rfl
  | cons b rest ih =>
    simp only [State.loadBytes]
    rw [ih]
    rfl

/-- Outside the loaded addresses a load leaves every byte. -/
theorem State.memRead_loadBytes_other (s : State) (off a : Nat) (bytes : List Byte) (hm : s.mem.wf)
    (ha : ∀ j < bytes.length, a % 4096 ≠ (off + j) % 4096) : (s.loadBytes off bytes).memRead a = s.memRead a := by
  induction bytes generalizing s off with
  | nil => rfl
  | cons b rest ih =>
    simp only [State.loadBytes]
    rw [ih _ _ (State.memWrite_wf s off b hm) fun j hj => ?_,
      State.memRead_memWrite_other s b hm (show a % 4096 ≠ off % 4096 from ha 0 (Nat.zero_lt_succ _))]
    rw [Nat.add_assoc, Nat.add_comm 1]
    exact ha (j + 1) (Nat.succ_lt_succ hj)

/-- A load that fits puts byte `j` at `off + j`. -/
theorem State.memRead_loadBytes_at (s : State) (off j : Nat) (bytes : List Byte) (hm : s.mem.wf)
    (hfit : off + bytes.length ≤ 4096) (hj : j < bytes.length) :
    (s.loadBytes off bytes).memRead (off + j) = bytes.getD j 0 := by
  induction bytes generalizing s off j with
  | nil => simp at hj
  | cons b rest ih =>
    have hw := State.memWrite_wf s off b hm
    simp only [List.length_cons] at hfit hj
    simp only [State.loadBytes]
    cases j with
    | zero =>
      rw [State.memRead_loadBytes_other _ _ _ _ hw fun j hj => by omega]
      exact State.memRead_memWrite_same s b hm rfl
    | succ j =>
      rw [show off + (j + 1) = off + 1 + j by omega, ih _ _ _ hw (by omega) (by omega)]
      rfl

end Sys2Proof.Machine
end

