-- ==== Sys2Proof/Laws/Ops.lean ====
section
/-! SUPPORT. What each shared operation over registers, framebuffer, keys and timers does, said once. -/

namespace Sys2Proof.Machine

/-! ### Flags -/

@[simp] theorem b2n_true : b2n true = 1 := rfl
@[simp] theorem b2n_false : b2n false = 0 := rfl

/-- A flag byte is 1 exactly when its condition holds. -/
theorem b2n_eq_one (c : Bool) : b2n c = 1 ↔ c = true := by cases c <;> decide

@[simp] theorem vf_toNat : vf.toNat = 15 := rfl

/-! ### Zero extension and the low nibble, in numbers (R9, R94, R183) -/

@[simp] theorem zextAddr_toNat (nnn : Addr) : (zextAddr nnn).toNat = nnn.toNat := by
  have := nnn.isLt
  rw [zextAddr, BitVec.toNat_setWidth]
  omega

@[simp] theorem zextByte_toNat (b : Byte) : (zextByte b).toNat = b.toNat := by
  have := b.isLt
  rw [zextByte, BitVec.toNat_setWidth]
  omega

@[simp] theorem lowNibble_toNat (b : Byte) : (lowNibble b).toNat = b.toNat % 16 := by
  simp [lowNibble]

/-! ### The block load (R187) -/

/-- The block load changes the register file and nothing else. -/
theorem State.loadBlock_eq (s : State) (k : Nat) : s.loadBlock k = { s with V := (s.loadBlock k).V } := by
  induction k with
  | zero => rfl
  | succ j ih => simp only [State.loadBlock]; rw [ih]; rfl

/-- The block load: register `V[j]` with `j` below the count holds the byte at `I + j`, every other register is unchanged. -/
theorem State.reg_loadBlock (s : State) (k : Nat) (hk : k ≤ 16) (j : Nib) :
    (s.loadBlock k).reg j = if j.toNat < k then s.memRead (s.ea j.toNat) else s.reg j := by
  induction k with
  | zero => rfl
  | succ i ih =>
    have hi : (BitVec.ofNat 4 i).toNat = i := by simp; omega
    simp only [State.loadBlock, State.reg_setReg, ih (by omega)]
    by_cases h : j = BitVec.ofNat 4 i
    · subst h
      simp [hi]
    · have hne : j.toNat ≠ i := fun e => h (BitVec.eq_of_toNat_eq (by rw [hi, e]))
      simp only [h, if_false]
      by_cases hlt : j.toNat < i
      · rw [if_pos hlt, if_pos (by omega)]
      · rw [if_neg hlt, if_neg (by omega)]

/-- A block load sees `I`, the register file and memory, nothing else of the state. -/
theorem State.loadBlock_V_congr {s t : State} (hI : t.I = s.I) (hV : t.V = s.V) (hm : t.mem = s.mem) (k : Nat) :
    (t.loadBlock k).V = (s.loadBlock k).V := by
  induction k with
  | zero => exact hV
  | succ j ih => simp only [State.loadBlock, State.setReg, ih, State.memRead, State.ea, hI, hm]

/-- A block transfer moves at most sixteen bytes, and all of them below 4096 (R185). -/
theorem blockCount_le (x : Nib) (i : Word) : blockCount x i ≤ x.toNat + 1 := Nat.min_le_left _ _

theorem blockCount_le_sixteen (x : Nib) (i : Word) : blockCount x i ≤ 16 :=
  Nat.le_trans (blockCount_le x i) x.isLt

theorem blockCount_fits (x : Nib) (i : Word) (h : 0 < blockCount x i) : i.toNat + blockCount x i ≤ 4096 := by
  unfold blockCount at *
  omega

/-! ### The framebuffer (R33) -/

/-- A framebuffer byte after a write: the byte written at its position, every other one as before. -/
theorem fbRead_fbWrite (fb : Vector Byte 256) (p q : Nat) (b : Byte) (hp : p < 256) :
    fbRead (fbWrite fb p b) q = if q = p then b else fbRead fb q := by
  simp only [fbRead, fbWrite, Vector.getElem?_setIfInBounds]
  by_cases h : q = p
  · subst h
    simp [hp]
  · simp [h, Ne.symm h]

/-- A cleared framebuffer reads zero everywhere. -/
@[simp] theorem fbRead_cleared (p : Nat) : fbRead (Vector.replicate 256 0#8) p = 0#8 := by
  simp only [fbRead, Vector.getElem?_replicate]
  split <;> rfl

/-- Two framebuffers that read alike at every position are the same. -/
theorem fb_ext {f g : Vector Byte 256} (h : ∀ p < 256, fbRead f p = fbRead g p) : f = g := by
  apply Vector.ext
  intro p hp
  simpa [fbRead, hp] using h p hp

/-! ### One draw (R205, R206) -/

/-- The framebuffer after a mask is XORed into one byte. -/
theorem Drawing.fbRead_xorByte (d : Drawing) (p q : Nat) (m : Byte) (hp : p < 256) :
    fbRead (d.xorByte p m).fb q = if q = p then fbRead d.fb q ^^^ m else fbRead d.fb q := by
  simp only [Drawing.xorByte, fbRead_fbWrite _ _ _ _ hp]
  by_cases h : q = p
  · subst h
    simp
  · simp [h]

/-- The collision flag after a mask is XORed into one byte. -/
theorem Drawing.hit_xorByte (d : Drawing) (p : Nat) (m : Byte) :
    (d.xorByte p m).hit = (d.hit || (fbRead d.fb p &&& m) != 0) := rfl

/-! ### Timers (R250) -/

/-- A count-down in numbers: one less, and 0 stays 0. -/
theorem countDown_toNat (t : Byte) : (countDown t).toNat = t.toNat - 1 := by
  unfold countDown
  split
  · rename_i h
    simp [h]
  · rename_i h
    have : t.toNat ≠ 0 := fun e => h (BitVec.eq_of_toNat_eq e)
    have hlt := t.isLt
    have h1 : (1 : Byte).toNat = 1 := rfl
    rw [BitVec.toNat_sub, h1]
    omega

@[simp] theorem countDown_zero : countDown 0#8 = 0#8 := rfl

/-! ### Keys (R223) -/

/-- `highestBelow` finds a set bit when there is one below the bound, and none above it is set. -/
theorem highestBelow_spec (m : Word) (b : Nat) (h : ∃ k < b, m.getLsbD k = true) :
    highestBelow m b < b ∧ m.getLsbD (highestBelow m b) = true ∧
      ∀ k, highestBelow m b < k → k < b → m.getLsbD k = false := by
  induction b with
  | zero =>
    obtain ⟨k, hk, _⟩ := h
    omega
  | succ b ih =>
    unfold highestBelow
    by_cases hb : m.getLsbD b = true
    · rw [if_pos hb]
      exact ⟨Nat.lt_succ_self b, hb, fun k h1 h2 => by omega⟩
    · rw [if_neg hb]
      obtain ⟨k, hk, hm⟩ := h
      have hkb : k ≠ b := fun e => hb (e ▸ hm)
      obtain ⟨h1, h2, h3⟩ := ih ⟨k, by omega, hm⟩
      refine ⟨by omega, h2, fun j hj hjb => ?_⟩
      by_cases hjeq : j = b
      · subst hjeq
        simpa using hb
      · exact h3 j hj (by omega)

/-- A non-zero latch's highest key, as the number `highestBelow` finds. -/
theorem highestKey_toNat (m : Word) (h : ∃ k < 16, m.getLsbD k = true) : (highestKey m).toNat = highestBelow m 16 := by
  have := (highestBelow_spec m 16 h).1
  rw [highestKey, BitVec.toNat_ofNat]
  omega

/-- A non-zero latch has a set bit. -/
theorem exists_key (m : Word) (h : m ≠ 0) : ∃ k < 16, m.getLsbD k = true := by
  by_contra hn
  push Not at hn
  apply h
  apply BitVec.eq_of_getLsbD_eq
  intro i hi
  simpa using hn i hi

end Sys2Proof.Machine
end

