-- ==== Sys2Proof/Laws/Display.lean ====
section
/-! SUPPORT. The laws of drawing (spec/43_display.md): one pixel and the collision flag after a byte, a sprite row and a whole
sprite are XORed in. A meaning's proof cites the last ones and never unfolds the drawing. -/

namespace Sys2Proof.Machine

/-- One pixel after a mask is XORed into one byte. -/
theorem Drawing.fbPixel_xorByte (d : Drawing) (p qx qy : Nat) (m : Byte) (hp : p < 256) :
    fbPixel (d.xorByte p m).fb qx qy =
      (fbPixel d.fb qx qy ^^ (decide (qy * 8 + qx / 8 = p) && m.getLsbD (7 - qx % 8))) := by
  unfold fbPixel
  rw [Drawing.fbRead_xorByte _ _ _ _ hp]
  by_cases h : qy * 8 + qx / 8 = p
  · simp [h]
  · simp [h]

/-- One pixel after one sprite row: toggled when it lies on that display row, less than 8 columns to the right of `px` (around
the edge), and its sprite bit is 1 (R203, R205, R206). -/
theorem Drawing.fbPixel_xorRow (d : Drawing) (b : Byte) {px row qx qy : Nat} (hpx : px < 64) (hrow : row < 32)
    (hqx : qx < 64) :
    fbPixel (d.xorRow px row b).fb qx qy =
      (fbPixel d.fb qx qy ^^ (decide (qy = row ∧ (qx + 64 - px) % 64 < 8) && b.getLsbD (7 - (qx + 64 - px) % 64))) := by
  unfold Drawing.xorRow
  split
  · rename_i h0
    rw [Drawing.fbPixel_xorByte _ _ _ _ _ (by omega)]
    congr 1
    by_cases hc : qy = row ∧ (qx + 64 - px) % 64 < 8
    · rw [decide_eq_true hc, decide_eq_true (by omega)]
      rw [show 7 - qx % 8 = 7 - (qx + 64 - px) % 64 by omega]
    · rw [decide_eq_false hc, decide_eq_false (by omega)]
      simp
  · rename_i h0
    rw [Drawing.fbPixel_xorByte _ _ _ _ _ (by omega), Drawing.fbPixel_xorByte _ _ _ _ _ (by omega), Bool.xor_assoc]
    congr 1
    rw [BitVec.getLsbD_ushiftRight, BitVec.getLsbD_shiftLeft]
    by_cases h1 : qy * 8 + qx / 8 = row * 8 + px / 8
    · have h2 : ¬ qy * 8 + qx / 8 = row * 8 + (px / 8 + 1) % 8 := by omega
      rw [decide_eq_true h1, decide_eq_false h2]
      by_cases hc : px % 8 ≤ qx % 8
      · rw [decide_eq_true (by omega : qy = row ∧ (qx + 64 - px) % 64 < 8),
          show px % 8 + (7 - qx % 8) = 7 - (qx + 64 - px) % 64 by omega]
        simp
      · rw [decide_eq_false (by omega : ¬(qy = row ∧ (qx + 64 - px) % 64 < 8))]
        simp [BitVec.getLsbD_of_ge, show 8 ≤ px % 8 + (7 - qx % 8) by omega]
    · by_cases h2 : qy * 8 + qx / 8 = row * 8 + (px / 8 + 1) % 8
      · rw [decide_eq_false h1, decide_eq_true h2]
        by_cases hc : qx % 8 < px % 8
        · rw [decide_eq_true (by omega : qy = row ∧ (qx + 64 - px) % 64 < 8),
            show 7 - qx % 8 - (8 - px % 8) = 7 - (qx + 64 - px) % 64 by omega]
          simp [show 7 - qx % 8 < 8 by omega, show ¬ 7 - qx % 8 < 8 - px % 8 by omega]
        · rw [decide_eq_false (by omega : ¬(qy = row ∧ (qx + 64 - px) % 64 < 8))]
          simp [show 7 - qx % 8 < 8 - px % 8 by omega]
      · rw [decide_eq_false h1, decide_eq_false h2, decide_eq_false (by omega : ¬(qy = row ∧ (qx + 64 - px) % 64 < 8))]
        simp

/-- A byte is non-zero exactly when one of its bits, counted from the left, is set. -/
theorem byte_ne_zero_iff (b : Byte) : (b != 0) = true ↔ ∃ i < 8, b.getLsbD (7 - i) = true := by
  constructor
  · intro h
    by_contra hn
    push Not at hn
    refine absurd (BitVec.eq_of_getLsbD_eq fun i hi => ?_) (bne_iff_ne.mp h)
    have := hn (7 - i) (by omega)
    rw [show 7 - (7 - i) = i by omega] at this
    simpa using this
  · rintro ⟨i, _, hb⟩
    refine bne_iff_ne.mpr fun e => ?_
    rw [e] at hb
    simp at hb

/-- The collision flag after one mask: as before, or some pixel is set in both the mask and the byte. -/
theorem Drawing.hit_xorByte_iff (d : Drawing) (p : Nat) (m : Byte) :
    (d.xorByte p m).hit = true ↔
      d.hit = true ∨ ∃ i < 8, m.getLsbD (7 - i) = true ∧ (fbRead d.fb p).getLsbD (7 - i) = true := by
  rw [Drawing.hit_xorByte, Bool.or_eq_true, byte_ne_zero_iff]
  simp [and_comm]

/-- The collision flag after one sprite row: as before, or some sprite pixel that is 1 meets a pixel that was on (R210). -/
theorem Drawing.hit_xorRow (d : Drawing) (b : Byte) {px row : Nat} (hpx : px < 64) (hrow : row < 32) :
    (d.xorRow px row b).hit = true ↔
      d.hit = true ∨ ∃ i < 8, b.getLsbD (7 - i) = true ∧ fbPixel d.fb ((px + i) % 64) row = true := by
  unfold Drawing.xorRow
  split
  · rename_i h0
    rw [Drawing.hit_xorByte_iff]
    refine or_congr_right (exists_congr fun i => and_congr_right fun hi => and_congr_right fun _ => ?_)
    unfold fbPixel
    rw [show row * 8 + (px + i) % 64 / 8 = row * 8 + px / 8 by omega, show (px + i) % 64 % 8 = i by omega]
  · rename_i h0
    rw [Drawing.hit_xorByte_iff, Drawing.hit_xorByte_iff, or_assoc]
    refine or_congr_right ?_
    constructor
    · rintro (⟨i, hi, hb, hf⟩ | ⟨i, hi, hb, hf⟩)
      · rw [BitVec.getLsbD_ushiftRight] at hb
        have hk : px % 8 + (7 - i) < 8 := by
          by_contra hk
          rw [BitVec.getLsbD_of_ge _ _ (by omega)] at hb
          cases hb
        refine ⟨i - px % 8, by omega, by rw [show 7 - (i - px % 8) = px % 8 + (7 - i) by omega]; exact hb, ?_⟩
        unfold fbPixel
        rw [show row * 8 + (px + (i - px % 8)) % 64 / 8 = row * 8 + px / 8 by omega,
          show (px + (i - px % 8)) % 64 % 8 = i by omega]
        exact hf
      · rw [BitVec.getLsbD_shiftLeft] at hb
        simp only [Bool.and_eq_true, Bool.not_eq_true', decide_eq_true_eq, decide_eq_false_iff_not] at hb
        have hi' : 7 - (i + (8 - px % 8)) = 7 - i - (8 - px % 8) := by omega
        refine ⟨i + (8 - px % 8), by omega, by rw [hi']; exact hb.2, ?_⟩
        rw [Drawing.fbRead_xorByte _ _ _ _ (by omega), if_neg (by omega)] at hf
        unfold fbPixel
        rw [show row * 8 + (px + (i + (8 - px % 8))) % 64 / 8 = row * 8 + (px / 8 + 1) % 8 by omega,
          show (px + (i + (8 - px % 8))) % 64 % 8 = i by omega]
        exact hf
    · rintro ⟨i, hi, hb, hf⟩
      unfold fbPixel at hf
      by_cases hc : px % 8 + i < 8
      · refine .inl ⟨px % 8 + i, hc, ?_, ?_⟩
        · rw [BitVec.getLsbD_ushiftRight, show px % 8 + (7 - (px % 8 + i)) = 7 - i by omega]
          exact hb
        · rw [show row * 8 + (px + i) % 64 / 8 = row * 8 + px / 8 by omega,
            show (px + i) % 64 % 8 = px % 8 + i by omega] at hf
          exact hf
      · refine .inr ⟨px % 8 + i - 8, by omega, ?_, ?_⟩
        · rw [BitVec.getLsbD_shiftLeft, show 7 - (px % 8 + i - 8) - (8 - px % 8) = 7 - i by omega, hb]
          simp
          omega
        · rw [Drawing.fbRead_xorByte _ _ _ _ (by omega), if_neg (by omega)]
          rw [show row * 8 + (px + i) % 64 / 8 = row * 8 + (px / 8 + 1) % 8 by omega,
            show (px + i) % 64 % 8 = px % 8 + i - 8 by omega] at hf
          exact hf

/-- A framebuffer byte is made of its eight pixels. -/
theorem fb_ext_pixel {f g : Vector Byte 256} (h : ∀ px < 64, ∀ py < 32, fbPixel f px py = fbPixel g px py) {p : Nat}
    (hp : p < 256) : fbRead f p = fbRead g p := by
  refine BitVec.eq_of_getLsbD_eq fun i hi => ?_
  have := h (p % 8 * 8 + (7 - i)) (by omega) (p / 8) (by omega)
  unfold fbPixel at this
  rwa [show p / 8 * 8 + (p % 8 * 8 + (7 - i)) / 8 = p by omega, show 7 - (p % 8 * 8 + (7 - i)) % 8 = i by omega] at this

/-- A drawing sees `I`, memory and the framebuffer, nothing else of the state. -/
theorem drawRows_congr {s t : State} (hI : t.I = s.I) (hf : t.fb = s.fb) (hm : t.mem = s.mem) (px py k : Nat) :
    drawRows t px py k = drawRows s px py k := by
  induction k with
  | zero => simp only [drawRows, hf]
  | succ j ih => simp only [drawRows, ih, spriteRow, State.memRead, State.ea, hI, hm]

/-- One pixel after `k` sprite rows: toggled when it lies under a sprite pixel that is 1. -/
theorem fbPixel_drawRows (s : State) (k : Nat) (hk : k ≤ 32) {px py qx qy : Nat} (hpx : px < 64) (hpy : py < 32)
    (hqx : qx < 64) (hqy : qy < 32) :
    fbPixel (drawRows s px py k).fb qx qy = (fbPixel s.fb qx qy ^^
      (decide ((qy + 32 - py) % 32 < k ∧ (qx + 64 - px) % 64 < 8) &&
        (spriteRow s ((qy + 32 - py) % 32)).getLsbD (7 - (qx + 64 - px) % 64))) := by
  induction k with
  | zero => simp [drawRows]
  | succ r ih =>
    simp only [drawRows]
    rw [Drawing.fbPixel_xorRow _ _ hpx (by omega) hqx, ih (by omega), Bool.xor_assoc]
    congr 1
    by_cases hr : (qy + 32 - py) % 32 = r
    · rw [hr]
      by_cases hx : (qx + 64 - px) % 64 < 8
      · rw [decide_eq_false (by omega), decide_eq_true (by omega), decide_eq_true (by omega)]
        simp
      · rw [decide_eq_false (by omega), decide_eq_false (by omega), decide_eq_false (by omega)]
        simp
    · rw [decide_eq_false (by omega : ¬(qy = (py + r) % 32 ∧ (qx + 64 - px) % 64 < 8))]
      have hlt : (qy + 32 - py) % 32 < r + 1 ↔ (qy + 32 - py) % 32 < r := by omega
      simp only [hlt]
      simp

/-- The collision flag after `k` sprite rows. -/
theorem hit_drawRows (s : State) (k : Nat) (hk : k ≤ 32) {px py : Nat} (hpx : px < 64) (hpy : py < 32) :
    (drawRows s px py k).hit = true ↔ ∃ r < k, ∃ i < 8,
      (spriteRow s r).getLsbD (7 - i) = true ∧ fbPixel s.fb ((px + i) % 64) ((py + r) % 32) = true := by
  induction k with
  | zero => simp [drawRows]
  | succ r ih =>
    simp only [drawRows]
    rw [Drawing.hit_xorRow _ _ hpx (by omega), ih (by omega)]
    have hpix : ∀ i < 8, fbPixel (drawRows s px py r).fb ((px + i) % 64) ((py + r) % 32) =
        fbPixel s.fb ((px + i) % 64) ((py + r) % 32) := by
      intro i hi
      rw [fbPixel_drawRows s r (by omega) hpx hpy (by omega) (by omega), decide_eq_false (by omega)]
      simp
    constructor
    · rintro (⟨q, hq, h⟩ | ⟨i, hi, hb, hf⟩)
      · exact ⟨q, by omega, h⟩
      · exact ⟨r, by omega, i, hi, hb, by rw [← hpix i hi]; exact hf⟩
    · rintro ⟨q, hq, i, hi, hb, hf⟩
      by_cases hqr : q = r
      · subst hqr
        exact .inr ⟨i, hi, hb, by rw [hpix i hi]; exact hf⟩
      · exact .inl ⟨q, by omega, i, hi, hb, hf⟩
end Sys2Proof.Machine
end

