-- ==== Sys2Proof/Laws/PerInstr.lean ====
section
/-! SUPPORT. The statements made per instruction, one lemma per constructor. -/

namespace Sys2Proof.Laws.EncodeFitsRow

/-- The encoder against the opcode map of R96: the word of the instruction carries the fixed bits of the instruction's own row.
(With which rows come before it, this is a part of `DecoderFollowsOpcodeMap`; here for `encode`, on every term.) -/
def Statement (i : Instr) : Prop :=
  ∃ r, opcodeMap[rowOf i]? = some r ∧ encode i &&& r.mask = r.bits

/-! ### The fixed bits of each format of R93, whatever its fields hold -/

theorem mask_nnn (op : Nib) (nnn : Addr) : (op ++ nnn) &&& 0xF000#16 = op ++ 0x000#12 := by
  rw [show (0xF000#16 : Word) = 0xF#4 ++ 0x000#12 from rfl, BitVec.and_append]
  congr 1
  · exact BitVec.and_allOnes
  · exact BitVec.and_zero

theorem mask_xkk (op x : Nib) (kk : Byte) : (op ++ x ++ kk) &&& 0xF0FF#16 = op ++ 0x0#4 ++ kk := by
  rw [show (0xF0FF#16 : Word) = 0xF#4 ++ 0x0#4 ++ 0xFF#8 from rfl, BitVec.and_append, BitVec.and_append]
  congr 1
  · congr 1
    · exact BitVec.and_allOnes
    · exact BitVec.and_zero
  · exact BitVec.and_allOnes

theorem mask_op_xkk (op x : Nib) (kk : Byte) : (op ++ x ++ kk) &&& 0xF000#16 = op ++ 0x0#4 ++ 0x00#8 := by
  rw [show (0xF000#16 : Word) = 0xF#4 ++ 0x0#4 ++ 0x00#8 from rfl, BitVec.and_append, BitVec.and_append]
  congr 1
  · congr 1
    · exact BitVec.and_allOnes
    · exact BitVec.and_zero
  · exact BitVec.and_zero

theorem mask_xyn (op x y n : Nib) : (op ++ x ++ y ++ n) &&& 0xF00F#16 = op ++ 0x0#4 ++ 0x0#4 ++ n := by
  rw [show (0xF00F#16 : Word) = 0xF#4 ++ 0x0#4 ++ 0x0#4 ++ 0xF#4 from rfl, BitVec.and_append, BitVec.and_append,
    BitVec.and_append]
  congr 1
  · congr 1
    · congr 1
      · exact BitVec.and_allOnes
      · exact BitVec.and_zero
    · exact BitVec.and_zero
  · exact BitVec.and_allOnes

theorem mask_op_xyn (op x y n : Nib) : (op ++ x ++ y ++ n) &&& 0xF000#16 = op ++ 0x0#4 ++ 0x0#4 ++ 0x0#4 := by
  rw [show (0xF000#16 : Word) = 0xF#4 ++ 0x0#4 ++ 0x0#4 ++ 0x0#4 from rfl, BitVec.and_append, BitVec.and_append,
    BitVec.and_append]
  congr 1
  · congr 1
    · congr 1
      · exact BitVec.and_allOnes
      · exact BitVec.and_zero
    · exact BitVec.and_zero
  · exact BitVec.and_zero

/-! ### One lemma per instruction -/

theorem cls : Statement .cls := ⟨_, rfl, rfl⟩
theorem ret : Statement .ret := ⟨_, rfl, rfl⟩
theorem sys (nnn : Addr) : Statement (.sys nnn) := ⟨_, rfl, mask_nnn _ _⟩
theorem jp (nnn : Addr) : Statement (.jp nnn) := ⟨_, rfl, mask_nnn _ _⟩
theorem call (nnn : Addr) : Statement (.call nnn) := ⟨_, rfl, mask_nnn _ _⟩
theorem seVxKk (x : Nib) (kk : Byte) : Statement (.seVxKk x kk) := ⟨_, rfl, mask_op_xkk _ _ _⟩
theorem sneVxKk (x : Nib) (kk : Byte) : Statement (.sneVxKk x kk) := ⟨_, rfl, mask_op_xkk _ _ _⟩
theorem seVxVy (x y n : Nib) : Statement (.seVxVy x y n) := ⟨_, rfl, mask_op_xyn _ _ _ _⟩
theorem ldVxKk (x : Nib) (kk : Byte) : Statement (.ldVxKk x kk) := ⟨_, rfl, mask_op_xkk _ _ _⟩
theorem addVxKk (x : Nib) (kk : Byte) : Statement (.addVxKk x kk) := ⟨_, rfl, mask_op_xkk _ _ _⟩
theorem ldVxVy (x y : Nib) : Statement (.ldVxVy x y) := ⟨_, rfl, mask_xyn _ _ _ _⟩
theorem orVxVy (x y : Nib) : Statement (.orVxVy x y) := ⟨_, rfl, mask_xyn _ _ _ _⟩
theorem andVxVy (x y : Nib) : Statement (.andVxVy x y) := ⟨_, rfl, mask_xyn _ _ _ _⟩
theorem xorVxVy (x y : Nib) : Statement (.xorVxVy x y) := ⟨_, rfl, mask_xyn _ _ _ _⟩
theorem addVxVy (x y : Nib) : Statement (.addVxVy x y) := ⟨_, rfl, mask_xyn _ _ _ _⟩
theorem subVxVy (x y : Nib) : Statement (.subVxVy x y) := ⟨_, rfl, mask_xyn _ _ _ _⟩
theorem shrVx (x y : Nib) : Statement (.shrVx x y) := ⟨_, rfl, mask_xyn _ _ _ _⟩
theorem subnVxVy (x y : Nib) : Statement (.subnVxVy x y) := ⟨_, rfl, mask_xyn _ _ _ _⟩
theorem shlVx (x y : Nib) : Statement (.shlVx x y) := ⟨_, rfl, mask_xyn _ _ _ _⟩
theorem sneVxVy (x y n : Nib) : Statement (.sneVxVy x y n) := ⟨_, rfl, mask_op_xyn _ _ _ _⟩
theorem ldINnn (nnn : Addr) : Statement (.ldINnn nnn) := ⟨_, rfl, mask_nnn _ _⟩
theorem jpV0Nnn (nnn : Addr) : Statement (.jpV0Nnn nnn) := ⟨_, rfl, mask_nnn _ _⟩
theorem rndVxKk (x : Nib) (kk : Byte) : Statement (.rndVxKk x kk) := ⟨_, rfl, mask_op_xkk _ _ _⟩
theorem drwVxVyN (x y n : Nib) : Statement (.drwVxVyN x y n) := ⟨_, rfl, mask_op_xyn _ _ _ _⟩
theorem skpVx (x : Nib) : Statement (.skpVx x) := ⟨_, rfl, mask_xkk _ _ _⟩
theorem sknpVx (x : Nib) : Statement (.sknpVx x) := ⟨_, rfl, mask_xkk _ _ _⟩
theorem ldVxDt (x : Nib) : Statement (.ldVxDt x) := ⟨_, rfl, mask_xkk _ _ _⟩
theorem ldVxK (x : Nib) : Statement (.ldVxK x) := ⟨_, rfl, mask_xkk _ _ _⟩
theorem ldDtVx (x : Nib) : Statement (.ldDtVx x) := ⟨_, rfl, mask_xkk _ _ _⟩
theorem ldStVx (x : Nib) : Statement (.ldStVx x) := ⟨_, rfl, mask_xkk _ _ _⟩
theorem addIVx (x : Nib) : Statement (.addIVx x) := ⟨_, rfl, mask_xkk _ _ _⟩
theorem ldFVx (x : Nib) : Statement (.ldFVx x) := ⟨_, rfl, mask_xkk _ _ _⟩
theorem ldBVx (x : Nib) : Statement (.ldBVx x) := ⟨_, rfl, mask_xkk _ _ _⟩
theorem ldMemVx (x : Nib) : Statement (.ldMemVx x) := ⟨_, rfl, mask_xkk _ _ _⟩
theorem ldVxMem (x : Nib) : Statement (.ldVxMem x) := ⟨_, rfl, mask_xkk _ _ _⟩

end Sys2Proof.Laws.EncodeFitsRow
end

