-- ==== Sys2Proof/Laws/Step.lean ====
section
/-! SUPPORT. What one step can do, said once: an invariant of the machine is proved from these, without unfolding `step`. -/

namespace Sys2Proof.Machine

/-- A step that answers a next state fetched either an instruction, which ran on the advanced state, or a word of no row,
which did nothing; then the timers ticked. -/
theorem step_cases {s t : State} (h : step s = .next t) :
    (∃ i u, decodeWord (fetchWord s) = .ok i ∧ exec i (s.setPc (s.pc + 2)) = .next u ∧ t = u.tick) ∨
    (∃ r, decodeWord (fetchWord s) = .error r ∧ t = (s.setPc (s.pc + 2)).tick) := by
  simp only [step, checkRange_eq] at h
  cases hd : decodeWord (fetchWord s) with
  | ok i =>
    rw [hd] at h
    obtain ⟨u, hu, ht⟩ := endCycle_cases h
    exact .inl ⟨i, u, rfl, hu, ht⟩
  | error r =>
    rw [hd] at h
    obtain ⟨u, hu, ht⟩ := endCycle_cases h
    exact .inr ⟨r, rfl, by rw [ht, ← Host.Outcome.next.inj hu]; rfl⟩

/-- The cycle of a fetched instruction: the instruction runs on the advanced state, then the timers tick. -/
theorem step_cases_of_fetched {s t : State} {i : Instr} (hf : decodeWord (fetchWord s) = .ok i) (h : step s = .next t) :
    ∃ u, exec i (s.setPc (s.pc + 2)) = .next u ∧ t = u.tick := by
  rcases step_cases h with ⟨j, u, hj, hu, ht⟩ | ⟨r, hr, _⟩
  · cases hf.symm.trans hj
    exact ⟨u, hu, ht⟩
  · cases hf.symm.trans hr

/-- The cycle of a fetched instruction, from what the instruction answers on the advanced state. -/
theorem step_of_fetched {s t : State} {i : Instr} (hf : decodeWord (fetchWord s) = .ok i)
    (h : exec i (s.setPc (s.pc + 2)) = .next t) : step s = .next t.tick := by
  simp only [step, checkRange_eq, hf, beginCycle_eq, h, endCycle_next]

/-- The cycle of a word of no row. -/
theorem step_of_unlisted {s : State} {r : DecodeRefusal} (hf : decodeWord (fetchWord s) = .error r) :
    step s = .next (s.setPc (s.pc + 2)).tick := by
  simp only [step, checkRange_eq, hf]
  rfl

/-- A run of the machine behind the host's interface goes on from the next state of its first step. -/
theorem core_run_succ {s t : State} (k : Nat) (h : step s = .next t) :
    Host.Core.run core (k + 1) s = Host.Core.run core k t := by
  have hs : core.step s = .next t := h
  simp only [Host.Core.run]
  rw [hs]

theorem core_run_zero (s : State) : Host.Core.run core 0 s = .next s := rfl

/-! ### The three meanings with two cases: what each answers in each case, and that these are all -/

theorem execRet_empty {s : State} (h : s.sp.val = 0) : execRet s = .next s := by
  rcases s.pop_cases with ⟨hp, _⟩ | ⟨k, hk, _⟩
  · simp only [execRet, hp]
  · omega

theorem execRet_pops {s : State} {k : Fin 17} (h : k.val + 1 = s.sp.val) :
    execRet s = .next { s with sp := k, pc := s.stackAt k.val } := by
  rcases s.pop_cases with ⟨_, h0⟩ | ⟨k', hk, hp⟩
  · omega
  · obtain rfl : k' = k := Fin.ext (by omega)
    simp only [execRet, hp]
    rfl

theorem execCall_full {s : State} (nnn : Addr) (h : s.sp.val = 16) : execCall nnn s = .next s := by
  rcases s.push_cases s.pc with ⟨hp, _⟩ | ⟨hl, _⟩
  · simp only [execCall, hp]
  · omega

theorem execCall_pushes {s : State} (nnn : Addr) {k : Fin 17} (hl : s.sp.val < 16) (hk : k.val = s.sp.val + 1) :
    execCall nnn s = .next { s with stack := s.stack.set s.sp.val s.pc hl, sp := k, pc := zextAddr nnn } := by
  rcases s.push_cases s.pc with ⟨_, h0⟩ | ⟨_, k', hk', hp⟩
  · omega
  · obtain rfl : k' = k := Fin.ext (by omega)
    simp only [execCall, hp]
    rfl

theorem execLdVxK_stalls {s : State} (x : Nib) (h : s.keys = 0) :
    execLdVxK x s = .next ((s.setPc (s.pc - 2)).setWait true) := by
  unfold execLdVxK
  rw [if_pos h]

theorem execLdVxK_takes {s : State} (x : Nib) (h : s.keys ≠ 0) :
    execLdVxK x s = .next (((s.setReg x (highestKey s.keys)).setKeys 0).setWait false) := by
  unfold execLdVxK
  rw [if_neg h]

/-- Everything RET can do (R122). -/
theorem execRet_cases {s t : State} (h : execRet s = .next t) :
    (t = s ∧ s.sp.val = 0) ∨
    ∃ k : Fin 17, k.val + 1 = s.sp.val ∧ t = { s with sp := k, pc := s.stackAt k.val } := by
  simp only [execRet] at h
  rcases s.pop_cases with ⟨hp, h0⟩ | ⟨k, hk, hp⟩ <;> rw [hp] at h <;> cases h
  · exact .inl ⟨rfl, h0⟩
  · exact .inr ⟨k, hk, rfl⟩

/-- Everything CALL can do (R124). -/
theorem execCall_cases {nnn : Addr} {s t : State} (h : execCall nnn s = .next t) :
    (t = s ∧ s.sp.val = 16) ∨
    ∃ (hl : s.sp.val < 16) (k : Fin 17), k.val = s.sp.val + 1 ∧
      t = { s with stack := s.stack.set s.sp.val s.pc hl, sp := k, pc := zextAddr nnn } := by
  simp only [execCall] at h
  rcases s.push_cases s.pc with ⟨hp, h0⟩ | ⟨hl, k, hk, hp⟩ <;> rw [hp] at h <;> cases h
  · exact .inl ⟨rfl, h0⟩
  · exact .inr ⟨hl, k, hk, rfl⟩

/-- Everything LD Vx,K can do (R224). -/
theorem execLdVxK_cases {x : Nib} {s t : State} (h : execLdVxK x s = .next t) :
    (s.keys = 0 ∧ t = (s.setPc (s.pc - 2)).setWait true) ∨
    (s.keys ≠ 0 ∧ t = ((s.setReg x (highestKey s.keys)).setKeys 0).setWait false) := by
  simp only [execLdVxK] at h
  split at h <;> rename_i hk <;> cases h
  · exact .inl ⟨hk, rfl⟩
  · exact .inr ⟨hk, rfl⟩

/-! ### Reset -/

@[simp] theorem State.reset_stackAt (j : Nat) : State.reset.stackAt j = 0 := by
  simp only [State.stackAt, State.reset, Vector.getElem?_replicate]
  split <;> rfl

@[simp] theorem State.reset_reg (j : Nib) : State.reset.reg j = 0 := by
  simp [State.reg, State.reset]

theorem State.reset_mem_wf : State.reset.mem.wf := Memory.wf_nil

end Sys2Proof.Machine
end

