-- ==== Sys2Proof/Tests/Slice0.lean ====
section
/-! SUPPORT. The model's own tests. Every expected value is taken from the specification: the words from the patterns of
spec/30_encoding.md R96, the one-step tests from the vectors of spec/95_test_vectors.md, whose names the theorems carry. The
last section holds, for each statement with hypotheses, a concrete case that meets them all. -/

namespace Sys2Proof.Tests

open Sys2Proof.Machine

/-! ### Helpers -/

/-- A state with some registers set. -/
def regs (l : List (Nib × Byte)) (s : State) : State := l.foldl (fun t p => t.setReg p.1 p.2) s

/-- A state with some framebuffer bytes set. -/
def lit (l : List (Nat × Byte)) (s : State) : State := s.setFb (l.foldl (fun f p => fbWrite f p.1 p.2) s.fb)

/-- Whether one step on the word `w`, placed at `pc`, ends in a state that `p` accepts. -/
def after (w : Nat) (s : State) (p : State → Bool) : Bool :=
  match step (s.withFetchWord 16 w) with
  | .next t => p t
  | .fault _ => false
  | .refused _ => false

/-! ### WellFormed: the two terms that stand for no word of their own (R98), and the parameters (R69) -/

theorem test_sys_cls_word_ill_formed : (Instr.sys 0x0E0).wellFormed = false := by decide
theorem test_sys_ret_word_ill_formed : (Instr.sys 0x0EE).wellFormed = false := by decide
theorem test_sys_neighbours_well_formed : (Instr.sys 0x0E1).wellFormed && (Instr.sys 0x0ED).wellFormed &&
    (Instr.sys 0x000).wellFormed && (Instr.sys 0xFFF).wellFormed = true := by decide
theorem test_params_valid : params.valid = true := by decide

/-! ### Decoding: one word of each row of R96, in the table's order -/

theorem test_decode_cls : decodeWord 0x00E0 = .ok .cls := by decide
theorem test_decode_ret : decodeWord 0x00EE = .ok .ret := by decide
theorem test_decode_sys : decodeWord 0x0123 = .ok (.sys 0x123) := by decide
theorem test_decode_jp : decodeWord 0x1ABC = .ok (.jp 0xABC) := by decide
theorem test_decode_call : decodeWord 0x2456 = .ok (.call 0x456) := by decide
theorem test_decode_seVxKk : decodeWord 0x3342 = .ok (.seVxKk 3 0x42) := by decide
theorem test_decode_sneVxKk : decodeWord 0x4B01 = .ok (.sneVxKk 0xB 0x01) := by decide
theorem test_decode_seVxVy : decodeWord 0x512F = .ok (.seVxVy 1 2 0xF) := by decide
theorem test_decode_ldVxKk : decodeWord 0x6011 = .ok (.ldVxKk 0 0x11) := by decide
theorem test_decode_addVxKk : decodeWord 0x7220 = .ok (.addVxKk 2 0x20) := by decide
theorem test_decode_ldVxVy : decodeWord 0x8340 = .ok (.ldVxVy 3 4) := by decide
theorem test_decode_orVxVy : decodeWord 0x8F21 = .ok (.orVxVy 0xF 2) := by decide
theorem test_decode_andVxVy : decodeWord 0x8122 = .ok (.andVxVy 1 2) := by decide
theorem test_decode_xorVxVy : decodeWord 0x8123 = .ok (.xorVxVy 1 2) := by decide
theorem test_decode_addVxVy : decodeWord 0x83A4 = .ok (.addVxVy 3 0xA) := by decide
theorem test_decode_subVxVy : decodeWord 0x8125 = .ok (.subVxVy 1 2) := by decide
theorem test_decode_shrVx : decodeWord 0x8126 = .ok (.shrVx 1 2) := by decide
theorem test_decode_subnVxVy : decodeWord 0x8127 = .ok (.subnVxVy 1 2) := by decide
theorem test_decode_shlVx : decodeWord 0x810E = .ok (.shlVx 1 0) := by decide
theorem test_decode_sneVxVy : decodeWord 0x9120 = .ok (.sneVxVy 1 2 0) := by decide
theorem test_decode_ldINnn : decodeWord 0xA2F0 = .ok (.ldINnn 0x2F0) := by decide
theorem test_decode_jpV0Nnn : decodeWord 0xBFFF = .ok (.jpV0Nnn 0xFFF) := by decide
theorem test_decode_rndVxKk : decodeWord 0xC30F = .ok (.rndVxKk 3 0x0F) := by decide
theorem test_decode_drwVxVyN : decodeWord 0xD125 = .ok (.drwVxVyN 1 2 5) := by decide
theorem test_decode_skpVx : decodeWord 0xE49E = .ok (.skpVx 4) := by decide
theorem test_decode_sknpVx : decodeWord 0xE4A1 = .ok (.sknpVx 4) := by decide
theorem test_decode_ldVxDt : decodeWord 0xFB07 = .ok (.ldVxDt 0xB) := by decide
theorem test_decode_ldVxK : decodeWord 0xF60A = .ok (.ldVxK 6) := by decide
theorem test_decode_ldDtVx : decodeWord 0xF315 = .ok (.ldDtVx 3) := by decide
theorem test_decode_ldStVx : decodeWord 0xF318 = .ok (.ldStVx 3) := by decide
theorem test_decode_addIVx : decodeWord 0xFF1E = .ok (.addIVx 0xF) := by decide
theorem test_decode_ldFVx : decodeWord 0xF229 = .ok (.ldFVx 2) := by decide
theorem test_decode_ldBVx : decodeWord 0xF533 = .ok (.ldBVx 5) := by decide
theorem test_decode_ldMemVx : decodeWord 0xFF55 = .ok (.ldMemVx 0xF) := by decide
theorem test_decode_ldVxMem : decodeWord 0xF265 = .ok (.ldVxMem 2) := by decide
theorem test_decode_unlisted : decodeWord 0x8AB8 = .error (.unlisted 0x8AB8) ∧ decodeWord 0x8008 = .error (.unlisted 0x8008) ∧
    decodeWord 0xE09F = .error (.unlisted 0xE09F) ∧ decodeWord 0xF066 = .error (.unlisted 0xF066) := by decide
/-- R61, R104: "stored as 0x60 at A and 0x11 at A+1". -/
theorem test_encode_bytes_big_endian : encodeBytes (.ldVxKk 0 0x11) = [0x60, 0x11] := by decide
theorem test_decode_table_word : decodeTableWord 16 0x6011 = some (.ldVxKk 0 0x11) ∧ decodeTableWord 16 0xF066 = none := by
  decide

/-! ### The cycle and control transfer (FL) -/

theorem test_FL1_sys :
    after 0x0000 State.reset
      (fun t => t.pc == 0x0202 && t.sp == 0 && t.V == State.reset.V && t.mem == []) = true := by
  decide
theorem test_FL2_unknown_word :
    after 0x8AB8 ({ regs [(3, 0x77)] State.reset with DT := 2 })
      (fun t => t.pc == 0x0202 && t.DT == 1 && t.reg 3 == 0x77) = true := by
  decide
theorem test_FL3_jp : after 0x1ABC State.reset (fun t => t.pc == 0x0ABC) = true := by decide
theorem test_FL4_jp_to_self : after 0x1200 State.reset (fun t => t.pc == 0x0200) = true := by decide
theorem test_FL10_call :
    after 0x2300 State.reset
      (fun t => t.pc == 0x0300 && t.sp == 1 && t.stackAt 0 == 0x0202) = true := by
  decide
theorem test_FL12_call_dropped :
    after 0x2400 ({ State.reset with sp := 16 })
      (fun t => t.pc == 0x0202 && t.sp == 16) = true := by
  decide
theorem test_FL15_ret_from_full :
    after 0x00EE ({ State.reset with sp := 16, stack := State.reset.stack.set 15 0x0F00 })
      (fun t => t.pc == 0x0F00 && t.sp == 15 && t.stackAt 15 == 0x0F00) = true := by
  decide
theorem test_FL13_ret_dropped : after 0x00EE State.reset (fun t => t.pc == 0x0202 && t.sp == 0) = true := by decide
theorem test_FL20_se_taken : after 0x3342 (regs [(3, 0x42)] State.reset) (fun t => t.pc == 0x0204) = true := by decide
theorem test_FL21_se_not_taken : after 0x3343 (regs [(3, 0x42)] State.reset) (fun t => t.pc == 0x0202) = true := by decide
theorem test_FL22_sne_not_taken : after 0x4342 (regs [(3, 0x42)] State.reset) (fun t => t.pc == 0x0202) = true := by decide
theorem test_FL23_sne_taken : after 0x4300 (regs [(3, 0x42)] State.reset) (fun t => t.pc == 0x0204) = true := by decide
theorem test_FL25_se_registers :
    after 0x5120 (regs [(1, 0x10), (2, 0x11)] State.reset)
      (fun t => t.pc == 0x0202) = true := by
  decide
theorem test_FL27_se_ignores_n :
    after 0x512F (regs [(1, 0x10), (2, 0x10)] State.reset)
      (fun t => t.pc == 0x0204) = true := by
  decide
theorem test_FL28_sne_registers :
    after 0x9120 (regs [(1, 0x10), (2, 0x11)] State.reset)
      (fun t => t.pc == 0x0204) = true := by
  decide
theorem test_FL30_sne_same_register :
    after 0x9110 (regs [(1, 0x10)] State.reset)
      (fun t => t.pc == 0x0202) = true := by
  decide
theorem test_FL41_jp_v0_not_masked :
    after 0xBFFF (regs [(0, 0xFF)] State.reset)
      (fun t => t.pc == 0x10FE) = true := by
  decide
/-! ### Loads, the ALU group and the random byte (AL) -/

theorem test_AL2_ld_vf :
    after 0x6F00 (regs [(15, 0x01)] State.reset)
      (fun t => t.reg 15 == 0x00 && t.pc == 0x0202) = true := by
  decide
theorem test_AL3_add_immediate :
    after 0x7220 (regs [(2, 0xF0)] State.reset)
      (fun t => t.reg 2 == 0x10 && t.reg 15 == 0x00) = true := by
  decide
theorem test_AL6_ld_register :
    after 0x8340 (regs [(4, 0x9C)] State.reset)
      (fun t => t.reg 3 == 0x9C && t.reg 4 == 0x9C) = true := by
  decide
theorem test_AL7_or :
    after 0x8121 (regs [(1, 0x0F), (2, 0xF0), (15, 0x01)] State.reset)
      (fun t => t.reg 1 == 0xFF && t.reg 15 == 0x01) = true := by
  decide
theorem test_AL9c_or_vf :
    after 0x8F21 (regs [(15, 0x0C), (2, 0x03)] State.reset)
      (fun t => t.reg 15 == 0x0F) = true := by
  decide
theorem test_AL8_and :
    after 0x8122 (regs [(1, 0x3C), (2, 0x0F), (15, 0x01)] State.reset)
      (fun t => t.reg 1 == 0x0C && t.reg 15 == 0x01) = true := by
  decide
theorem test_AL9_xor :
    after 0x8123 (regs [(1, 0xFF), (2, 0x0F), (15, 0x01)] State.reset)
      (fun t => t.reg 1 == 0xF0 && t.reg 15 == 0x01) = true := by
  decide
theorem test_AL9b_xor_same_register :
    after 0x8113 (regs [(1, 0x5A)] State.reset)
      (fun t => t.reg 1 == 0x00) = true := by
  decide
theorem test_AL13_add_sum_255 :
    after 0x8124 (regs [(1, 0xF0), (2, 0x0F), (15, 0x01)] State.reset)
      (fun t => t.reg 1 == 0xFF && t.reg 15 == 0x00) = true := by
  decide
theorem test_AL15_add_into_vf :
    after 0x8F24 (regs [(15, 0xF0), (2, 0x20)] State.reset)
      (fun t => t.reg 15 == 0x01) = true := by
  decide
theorem test_AL21_sub_borrow :
    after 0x8125 (regs [(1, 0x05), (2, 0x0A), (15, 0x01)] State.reset)
      (fun t => t.reg 1 == 0xFB && t.reg 15 == 0x00) = true := by
  decide
theorem test_AL22_sub_equal :
    after 0x8125 (regs [(1, 0x77), (2, 0x77)] State.reset)
      (fun t => t.reg 1 == 0x00 && t.reg 15 == 0x01) = true := by
  decide
theorem test_AL30_subn_borrow :
    after 0x8127 (regs [(1, 0x0A), (2, 0x05), (15, 0x01)] State.reset)
      (fun t => t.reg 1 == 0xFB && t.reg 15 == 0x00) = true := by
  decide
theorem test_AL31_subn :
    after 0x8127 (regs [(1, 0x05), (2, 0x0A)] State.reset)
      (fun t => t.reg 1 == 0x05 && t.reg 15 == 0x01) = true := by
  decide
theorem test_AL42_shr_ignores_y :
    after 0x8126 (regs [(1, 0x04), (2, 0xFF)] State.reset)
      (fun t => t.reg 1 == 0x02 && t.reg 15 == 0x00) = true := by
  decide
theorem test_AL43_shr_vf : after 0x8F06 (regs [(15, 0x03)] State.reset) (fun t => t.reg 15 == 0x01) = true := by decide
theorem test_AL50_shl :
    after 0x810E (regs [(1, 0x81)] State.reset)
      (fun t => t.reg 1 == 0x02 && t.reg 15 == 0x01) = true := by
  decide
theorem test_AL51_shl_no_carry :
    after 0x810E (regs [(1, 0x40), (15, 0x01)] State.reset)
      (fun t => t.reg 1 == 0x80 && t.reg 15 == 0x00) = true := by
  decide
/-! ### Index register, BCD and block transfers (MX) -/

theorem test_MX2_ld_i : after 0xAFFF ({ State.reset with I := 0xFFFF }) (fun t => t.I == 0x0FFF) = true := by decide
theorem test_MX3_add_i_past_memory :
    after 0xF11E ({ regs [(1, 0x05)] State.reset with I := 0x0FFE })
      (fun t => t.I == 0x1003 && t.reg 15 == 0x00) = true := by
  decide
theorem test_MX4_add_i_wraps :
    after 0xF11E ({ regs [(1, 0x02)] State.reset with I := 0xFFFF })
      (fun t => t.I == 0x0001 && t.reg 15 == 0x00) = true := by
  decide
theorem test_MX11_ld_f_low_nibble :
    after 0xF229 ({ regs [(2, 0x1A)] State.reset with I := 0x0123 })
      (fun t => t.I == 0x0032) = true := by
  decide
theorem test_MX13_ld_f_last_glyph : after 0xF229 (regs [(2, 0xFF)] State.reset) (fun t => t.I == 0x004B) = true := by decide
theorem test_MX20_ld_b :
    after 0xF533 ({ regs [(5, 0x9C)] State.reset with I := 0x0300 })
      (fun t => t.memRead 0x300 == 1 && t.memRead 0x301 == 5 && t.memRead 0x302 == 6) = true := by
  decide
theorem test_MX24_ld_b_wraps :
    after 0xF533 ({ regs [(5, 0x7B)] State.reset with I := 0x0FFE })
      (fun t => t.memRead 0xFFE == 1 && t.memRead 0xFFF == 2 && t.memRead 0 == 3) = true := by
  decide
theorem test_MX30_store_block :
    after 0xF255 ({ regs [(0, 0x11), (1, 0x22), (2, 0x33), (3, 0x44)] State.reset with I := 0x0400 })
      (fun t => t.memRead 0x400 == 0x11 && t.memRead 0x401 == 0x22 && t.memRead 0x402 == 0x33 && t.memRead 0x403 == 0 && t.I == 0x400) = true := by
  decide
theorem test_MX31_store_block_clamped :
    after 0xF255 ({ regs [(0, 0x11), (1, 0x22), (2, 0x33)] State.reset with I := 0x0FFE })
      (fun t => t.memRead 0xFFE == 0x11 && t.memRead 0xFFF == 0x22 && t.memRead 0 == 0xF0) = true := by
  decide
theorem test_MX41_load_block_clamped :
    after 0xF265 ({ regs [(2, 0x77)] (State.reset.loadBytes 0xFFE [0xAA, 0xBB]) with I := 0x0FFE })
      (fun t => t.reg 0 == 0xAA && t.reg 1 == 0xBB && t.reg 2 == 0x77 && t.I == 0xFFE) = true := by
  decide
theorem test_MX44_load_block_own_word :
    after 0xF165 ({ State.reset with I := 0x0200 })
      (fun t => t.reg 0 == 0xF1 && t.reg 1 == 0x65) = true := by
  decide
/-! ### Display (DR) -/

theorem test_DR1_cls :
    after 0x00E0 (lit [(0, 0x80), (1, 0x01)] (regs [(15, 0x01)] State.reset))
      (fun t => t.dirty && fbRead t.fb 0 == 0 && fbRead t.fb 1 == 0 && t.reg 15 == 0x01) = true := by
  decide +kernel
theorem test_DR15_drw_right_edge :
    after 0xD011 ({ regs [(0, 0x3C), (1, 0x05)] (State.reset.loadBytes 0x300 [0xFF]) with I := 0x0300 })
      (fun t => fbRead t.fb 47 == 0x0F && fbRead t.fb 40 == 0xF0 && t.reg 15 == 0x00 && t.dirty) = true := by
  decide +kernel
theorem test_DR13_drw_collision :
    after 0xD011 (lit [(1, 0x20)] { regs [(0, 0x03)] (State.reset.loadBytes 0x300 [0x01]) with I := 0x0300 })
      (fun t => fbRead t.fb 1 == 0x00 && t.reg 15 == 0x01) = true := by
  decide +kernel
/-! ### Keys and timers (KT) -/

theorem test_KT3_skp_low_nibble :
    after 0xE49E ({ regs [(4, 0x15)] State.reset with keys := 0x0020 })
      (fun t => t.pc == 0x0204 && t.keys == 0x0020) = true := by
  decide
theorem test_KT2_skp_not_taken :
    after 0xE49E ({ regs [(4, 0x04)] State.reset with keys := 0x0020 })
      (fun t => t.pc == 0x0202) = true := by
  decide
theorem test_KT5_sknp_not_taken :
    after 0xE4A1 ({ regs [(4, 0x05)] State.reset with keys := 0x0020 })
      (fun t => t.pc == 0x0202) = true := by
  decide
theorem test_KT7_sknp_taken :
    after 0xE4A1 ({ State.reset with keys := 0xFFFE })
      (fun t => t.pc == 0x0204) = true := by
  decide
theorem test_KT10_read_timer :
    after 0xF307 ({ State.reset with DT := 0x2A })
      (fun t => t.reg 3 == 0x2A && t.DT == 0x29) = true := by
  decide
theorem test_KT13_load_delay_timer : after 0xF315 (regs [(3, 0x3C)] State.reset) (fun t => t.DT == 0x3B) = true := by decide
theorem test_KT14_load_delay_timer_zero :
    after 0xF315 ({ State.reset with DT := 9 })
      (fun t => t.DT == 0) = true := by
  decide
theorem test_KT17_load_sound_timer :
    after 0xF318 ({ regs [(3, 0xFF)] State.reset with DT := 5 })
      (fun t => t.ST == 0xFE && t.DT == 4) = true := by
  decide
theorem test_KT20_stall :
    after 0xF60A ({ State.reset with DT := 3 })
      (fun t => t.pc == 0x0200 && t.wait && t.DT == 2) = true := by
  decide
theorem test_KT22_key_taken :
    after 0xF60A ({ State.reset with keys := 0x0024, wait := true })
      (fun t => t.reg 6 == 5 && t.pc == 0x0202 && t.keys == 0 && !t.wait) = true := by
  decide

/-- AL61: with `kk = 0` the result is 0 whatever was drawn. -/
theorem test_AL61_rnd_masked_by_zero :
    ∃ t, exec (.rndVxKk 3 0x00) (regs [(3, 0x55)] State.reset) = .next t ∧ t.reg 3 = 0 := ⟨_, rfl, by simp⟩

/-- AL60: should the draw be 0xA7, `kk = 0x0F` leaves 0x07. -/
theorem test_AL60_rnd_mask : ∃ t, exec (.rndVxKk 3 0x0F) State.reset = .next t ∧
    (Config.draw State.reset.draws = 0xA7 → t.reg 3 = 0x07) := ⟨_, rfl, fun h => by simp [h]⟩

/-! ### What the host asks of `withFetchWord`: the first instruction after reset -/

theorem test_with_fetch_word_runs_first : fetchWord (State.reset.withFetchWord 16 0x6011) = 0x6011 ∧
    after 0x6011 State.reset (fun t => t.reg 0 == 0x11 && t.pc == 0x0202) = true := by decide

/-- R61 and R63 at the edge: at `pc = 0xFFF` the second byte is the one at address 0. -/
theorem test_fetch_at_the_last_byte :
    fetchWord ({ State.reset with pc := 0x0FFF }.withFetchWord 16 0x1234) = 0x1234 ∧
    ({ State.reset with pc := 0x0FFF }.withFetchWord 16 0x1234).memRead 0 = 0x34 := by decide

/-! ### Witnesses: for every statement with hypotheses, a concrete case that meets them all, at the boundaries of their ranges -/

/-- Whether the step from `s` answers a next state. -/
def steps (s : State) : Bool :=
  match step s with
  | .next _ => true
  | .fault _ => false
  | .refused _ => false

/-- The state the step from `s` answers. -/
def ran (s : State) : State :=
  match step s with
  | .next t => t
  | .fault _ => s
  | .refused _ => s

theorem step_ran {s : State} (h : steps s = true) : step s = .next (ran s) := by
  unfold steps at h
  unfold ran
  cases hs : step s with
  | next t => rfl
  | fault r => cases r
  | refused r => simp [hs] at h

theorem next_of {s : State} (h : steps s = true) : ∃ t, step s = .next t := ⟨_, step_ran h⟩

theorem withFetchWord_wf (s : State) (n w : Nat) (h : s.mem.wf) : (s.withFetchWord n w).mem.wf :=
  State.memWrite_wf _ _ _ (State.memWrite_wf _ _ _ h)

/-- The cycle of a fetched instruction, for the witnesses below. -/
theorem cycle_ran {s : State} {i : Instr} (hf : decodeWord (fetchWord s) = .ok i) (h : steps s = true) : Cycle i s (ran s) :=
  ⟨hf, step_ran h⟩

theorem cycle_of {s : State} {i : Instr} (hf : decodeWord (fetchWord s) = .ok i) (h : steps s = true) : ∃ t, Cycle i s t :=
  ⟨_, cycle_ran hf h⟩

theorem witness_DecodeOfEncodeIsIdentity : (Instr.sys 0xFFF).wellFormed = true ∧ (Instr.drwVxVyN 15 15 15).wellFormed = true := by
  decide

theorem witness_EncodeOfDecodeIsIdentity : decodeWord 0x00E0 = .ok .cls ∧ decodeWord 0x00EE = .ok .ret ∧
    decodeWord 0x0000 = .ok (.sys 0) ∧ decodeWord 0xFF65 = .ok (.ldVxMem 15) := by decide

theorem witness_DecoderFollowsOpcodeMap : decodeWord 0x800E = .ok (.shlVx 0 0) ∧ firstRow 0x800E = 18 ∧
    decodeWord 0xFFFF = .error (.unlisted 0xFFFF) ∧ firstRow 0xFFFF = 35 := by decide

theorem witness_NoOpWordsAreExactly : decodeWord 0x0FFF = .ok (.sys 0xFFF) ∧ decodeWord 0x00E1 = .ok (.sys 0x0E1) ∧
    decodeWord 0x1000 = .ok (.jp 0) ∧ decodeWord 0x8FFF = .error (.unlisted 0x8FFF) ∧
    decodeWord 0xE000 = .error (.unlisted 0xE000) ∧ decodeWord 0xF064 = .error (.unlisted 0xF064) := by decide

theorem witness_EveryInstructionIsTwoBytes : (Instr.jp 0xFFF).wellFormed = true ∧
    decodeBytes [0x1F, 0xFF, 0xAA] = .ok (.jp 0xFFF, [0xAA]) ∧ decodeBytes [0x1F] = .error .truncated ∧
    decodeBytes [] = .error .truncated := by decide

theorem witness_StepRunsDecodedInstruction :
    decodeBytes [(State.reset.withFetchWord 16 0xF60A).memRead 0x200, (State.reset.withFetchWord 16 0xF60A).memRead 0x201] =
      .ok (.ldVxK 6, []) := by decide

theorem witness_UnknownWordCycleIsNoOp :
    decodeWord (fetchWord (State.reset.withFetchWord 16 0x8AB8)) = .error (.unlisted 0x8AB8) := by decide

theorem witness_ProgramCounterAfterCycle : ∃ t, Cycle (.seVxKk 0 0) ({ State.reset with pc := 0xFFFC }.withFetchWord 16 0x3000) t :=
  cycle_of (by decide) (by decide)

/-- All four clauses: a plain cycle, and the two timer loads. -/
theorem witness_TimersAfterCycle : (∃ t, step State.reset = .next t) ∧
    (∃ t, Cycle (.ldDtVx 0) (State.reset.withFetchWord 16 0xF015) t) ∧
    (∃ t, Cycle (.ldStVx 0) (State.reset.withFetchWord 16 0xF018) t) :=
  ⟨next_of (by decide), cycle_of (by decide) (by decide), cycle_of (by decide) (by decide)⟩

theorem witness_CycleKeepsMemoryCanonical : (State.reset.withFetchWord 16 0xF533).mem.wf ∧
    (State.reset.withFetchWord 16 0xF533).mem ≠ [] ∧ (∃ t, step (State.reset.withFetchWord 16 0xF533) = .next t) ∧
    ∃ t, hostMove (.load 4094 [0x12, 0x34]) (State.reset.withFetchWord 16 0xF533) = .next t :=
  ⟨withFetchWord_wf _ _ _ State.reset_mem_wf, by decide, next_of (by decide), _, rfl⟩

/-- The invariant with `wait` set, in a stall that goes on. -/
theorem witness_CycleKeepsWaitMeansBlocked : ∃ s t : State, s.wait = true ∧ WaitMeansBlocked s ∧ step s = .next t :=
  let ⟨t, ht⟩ := next_of (s := { State.reset with wait := true }.withFetchWord 16 0xF60A) (by decide)
  ⟨_, t, by decide, fun _ => ⟨6, by unfold Fetches; decide⟩, ht⟩

/-- A state that a host load and a cycle reach, with memory that is not the reset memory. -/
theorem witness_ReachableMemoryCanonical : ∃ s : State, Reachable s ∧ s.memRead 0x200 = 0x12 :=
  ⟨State.reset.loadBytes 0x200 [0x12, 0x34], .move (.load 0x200 [0x12, 0x34]) .reset (by rfl), by decide⟩

theorem witness_ResetState_font_edge : State.reset.memRead 79 = 0x80 ∧ State.reset.memRead 80 = 0 ∧
    State.reset.memRead 4095 = 0 := by decide

/-- The statements about every step (keys, display, stack, stores, `I`): each kind of word they name does step. -/
theorem witness_steps : (∃ t, step (State.reset.withFetchWord 16 0x00E0) = .next t) ∧
    (∃ t, step (State.reset.withFetchWord 16 0xD015) = .next t) ∧
    (∃ t, step ({ State.reset with sp := 15 }.withFetchWord 16 0x2300) = .next t) ∧
    (∃ t, step ({ State.reset with sp := 1 }.withFetchWord 16 0x00EE) = .next t) ∧
    (∃ t, step (State.reset.withFetchWord 16 0xF055) = .next t) ∧
    (∃ t, step ({ State.reset with keys := 1 }.withFetchWord 16 0xF00A) = .next t) ∧
    (∃ t, step (State.reset.withFetchWord 16 0xA123) = .next t) :=
  ⟨next_of (by decide), next_of (by decide), next_of (by decide), next_of (by decide), next_of (by decide),
    next_of (by decide), next_of (by decide)⟩

/-- The block load into `VF` whose last byte lies at 4096 and is not loaded. -/
theorem witness_OnlyFlagWritersChangeVf :
    (∃ t, Cycle (.ldVxMem 15) ({ State.reset with I := 4081 }.withFetchWord 16 0xFF65) t) ∧
    mayWriteVf (.ldVxMem 15) ({ State.reset with I := 4081 }.withFetchWord 16 0xFF65) = false ∧
    mayWriteVf (.ldVxMem 15) ({ State.reset with I := 4080 }.withFetchWord 16 0xFF65) = true :=
  ⟨cycle_of (by decide) (by decide), by decide, by decide⟩

theorem witness_SoundWaitDirtyUnobservable : ∃ t, step ({ State.reset with ST := 7 }.withFetchWord 16 0xF60A) = .next t :=
  next_of (by decide)

/-- Two states that differ in a dead entry, at the edge: the entry at `sp` itself. -/
theorem witness_DeadStackEntriesUnobservable : ∃ s s' t : State, SameButDeadStack s s' ∧ s ≠ s' ∧ step s = .next t :=
  let ⟨t, ht⟩ := next_of (s := { State.reset with sp := 1 }.withFetchWord 16 0x00EE) (by decide)
  ⟨_, { { State.reset with sp := 1 }.withFetchWord 16 0x00EE with stack := State.reset.stack.set 1 0x0300 }, t,
    ⟨rfl, by decide⟩, fun h => absurd (congrArg (fun u : State => u.stackAt 1) h) (by decide), ht⟩

/-- The highest `I` of the statement, 4094. -/
theorem witness_StoredInstructionIsFetched : ∃ s t : State, s.mem.wf ∧ Cycle (.ldMemVx 1) s t ∧ s.I.toNat = 4094 ∧ t.pc = s.I :=
  ⟨{ State.reset with I := 4094, pc := 4092 }.withFetchWord 16 0xF155, _, withFetchWord_wf _ _ _ Memory.wf_nil,
    cycle_ran (by decide) (by decide), by decide, by decide⟩

/-- A call into the last free slot, to a RET. -/
theorem witness_CallThenReturnComesBack : ∃ s t u : State, s.sp.val = 15 ∧ Cycle (.call 0x300) s t ∧ Cycle .ret t u :=
  ⟨{ State.reset.loadBytes 0x300 [0x00, 0xEE] with sp := 15 }.withFetchWord 16 0x2300, _, _, by decide,
    cycle_ran (by decide) (by decide), cycle_ran (by decide) (by decide)⟩

theorem witness_StallLastsWhileNoKey : (State.reset.withFetchWord 16 0xF60A).keys = 0 ∧
    AtWaitForKey (State.reset.withFetchWord 16 0xF60A) := ⟨by decide, 6, by unfold Fetches; decide⟩

theorem witness_KeyEndsTheStall : Fetches (State.reset.withFetchWord 16 0xFF0A) (.ldVxK 15) ∧ (0x8000 : Word) ≠ 0 :=
  ⟨by unfold Fetches; decide, by decide⟩

theorem witness_JumpGoesToAddress : Fetches (State.reset.withFetchWord 16 0x1200) (.jp 0x200) ∧
    (State.reset.withFetchWord 16 0x1200).pc.toNat = (0x200 : Addr).toNat := ⟨by unfold Fetches; decide, by decide⟩

/-- Both clauses at their boundary: 15 entries in use, and 16. -/
theorem witness_CallPushesOrIsDropped : ({ State.reset with sp := 15 } : State).sp.val < 16 ∧
    ¬({ State.reset with sp := 16 } : State).sp.val < 16 := by decide

theorem witness_ReturnPopsOrIsDropped : State.reset.sp.val = 0 ∧ ({ State.reset with sp := 1 } : State).sp.val ≠ 0 ∧
    ({ State.reset with sp := 16 } : State).sp.val ≠ 0 := by decide

/-- Both sides of each hypothesis on registers: `VF` as destination, and not. -/
theorem witness_flag_destinations : (14 : Nib) ≠ vf ∧ (15 : Nib) = vf ∧ (0 : Nib) ≠ vf := by decide

theorem witness_BcdDigitsStored : State.reset.mem.wf ∧ (State.reset.withFetchWord 16 0xF533).mem.wf ∧
    ∀ j < 3, 4095 ≠ (State.reset.I.toNat + j) % 4096 :=
  ⟨State.reset_mem_wf, withFetchWord_wf _ _ _ State.reset_mem_wf, by decide⟩

/-- The clauses at their boundary: the last byte that fits, the first that does not, and an address outside. -/
theorem witness_BlockStoreIsClamped : State.reset.mem.wf ∧
    ((1 : Nib).toNat ≤ (1 : Nib).toNat ∧ ({ State.reset with I := 4094 } : State).I.toNat + (1 : Nib).toNat < 4096) ∧
    ¬({ State.reset with I := 4095 } : State).I.toNat + (1 : Nib).toNat < 4096 ∧
    ∀ j ≤ (1 : Nib).toNat, 0 ≠ ({ State.reset with I := 4095 } : State).I.toNat + j :=
  ⟨State.reset_mem_wf, by decide, by decide, by decide⟩

theorem witness_BlockLoadIsClamped :
    ((15 : Nib).toNat ≤ (15 : Nib).toNat ∧ ({ State.reset with I := 4080 } : State).I.toNat + (15 : Nib).toNat < 4096) ∧
    ¬({ State.reset with I := 4096 } : State).I.toNat + (0 : Nib).toNat < 4096 := by decide

/-- A drawn sprite, its last pixel `(7, 14)` and a display pixel it does not cover. -/
theorem witness_SpritePixelMapping : (∃ t, exec (.drwVxVyN 0 1 15) State.reset = .next t) ∧ 14 < (15 : Nib).toNat ∧
    ∀ r < (15 : Nib).toNat, ∀ i < 8, ¬(63 = spriteCol State.reset 0 i ∧ 31 = spriteLine State.reset 1 r) :=
  ⟨⟨_, rfl⟩, by decide, by decide⟩

/-- Both sides of the equivalence have a case: a collision and none (see also DR13 and DR15). -/
theorem witness_CollisionFlagLaw : (∃ t, exec (.drwVxVyN 0 0 1) (lit [(0, 0x80)] State.reset) = .next t) ∧
    (spriteBit (lit [(0, 0x80)] State.reset) 0 0 &&
      fbPixel (lit [(0, 0x80)] State.reset).fb (spriteCol (lit [(0, 0x80)] State.reset) 0 0)
        (spriteLine (lit [(0, 0x80)] State.reset) 0 0)) = true :=
  ⟨⟨_, rfl⟩, by decide +kernel⟩

/-- Both cases of the hypothesis: coordinate registers other than `VF`, and `VF` itself left at 0 by a draw without collision. -/
theorem witness_SpriteDrawnTwiceRestores :
    (∃ t u, ((0 : Nib) ≠ vf ∧ (14 : Nib) ≠ vf) ∧
      exec (.drwVxVyN 0 14 5) State.reset = .next t ∧ exec (.drwVxVyN 0 14 5) t = .next u) ∧
    (∃ t u, t.reg vf = State.reset.reg vf ∧
      exec (.drwVxVyN 15 15 5) State.reset = .next t ∧ exec (.drwVxVyN 15 15 5) t = .next u) :=
  ⟨⟨_, _, by decide, rfl, rfl⟩, _, _, by decide +kernel, rfl, rfl⟩

theorem witness_WaitForKey : State.reset.keys = 0 ∧ ({ State.reset with keys := 0x8000 } : State).keys ≠ 0 := by decide

theorem witness_TimerTransfers : ∃ t, Cycle (.ldVxDt 3) ({ State.reset with DT := 1 }.withFetchWord 16 0xF307) t :=
  cycle_of (by decide) (by decide)

/-- Each clause at its boundary: the lowest and the highest single key, and what lies above the highest. -/
theorem witness_HighestKeyIsLargestSetBit : (0x0001 : Word) ≠ 0 ∧ (0x8000 : Word) ≠ 0 ∧ (highestKey 0x4000).toNat < 15 ∧
    (0x4000 : Word).getLsbD 15 = false := by decide

/-- A load that just fits, and one that just does not, of bytes and of words. -/
theorem witness_HostLoadPlacesBytes : State.reset.mem.wf ∧ 4094 + [(0x12 : Byte), 0x34].length ≤ 4096 ∧
    ¬4095 + [(0x12 : Byte), 0x34].length ≤ 4096 ∧ 4094 + 2 * [(0x1234 : Word)].length ≤ 4096 ∧
    ¬4095 + 2 * [(0x1234 : Word)].length ≤ 4096 := ⟨State.reset_mem_wf, by decide, by decide, by decide, by decide⟩

/-- R274: words are loaded big-endian. -/
theorem test_load_words : bytesOfWords [0x6011, 0x1200] = [0x60, 0x11, 0x12, 0x00] := by decide

end Sys2Proof.Tests
end

section
/-! PROOFS. The statements of spec/10_state.md: what one cycle may write in each part of the state, and which parts no cycle
reads. Each rule of the form "only these instructions write this part" is read off one table, `Instr.writes`, which
`exec_keeps` ties to the meanings. -/

namespace Sys2Proof

open Sys2Proof.Machine

/-! ### Frames part by part -/

/-- One part of the state is in `t` as it was in `s`. -/
def Part.Same : Part → State → State → Prop
  | .V, s, t => ∀ j : Nib, t.reg j = s.reg j
  | .I, s, t => t.I = s.I
  | .pc, s, t => t.pc = s.pc
  | .sp, s, t => t.sp = s.sp
  | .stack, s, t => ∀ j, t.stackAt j = s.stackAt j
  | .DT, s, t => t.DT = s.DT
  | .ST, s, t => t.ST = s.ST
  | .keys, s, t => t.keys = s.keys
  | .wait, s, t => t.wait = s.wait
  | .dirty, s, t => t.dirty = s.dirty
  | .mem, s, t => t.mem = s.mem ∧ ∀ a, t.memRead a = s.memRead a
  | .fb, s, t => ∀ p, fbRead t.fb p = fbRead s.fb p
  | .draws, s, t => t.draws = s.draws

theorem keeps_iff {c : List Part} {s t : State} : Keeps c s t ↔ ∀ p ∉ c, p.Same s t := by
  constructor
  · rintro ⟨hV, hI, hpc, hsp, hstack, hDT, hST, hkeys, hwait, hdirty, hmem, hfb, hdraws⟩ p
    cases p <;> assumption
  · intro h
    exact ⟨h .V, h .I, h .pc, h .sp, h .stack, h .DT, h .ST, h .keys, h .wait, h .dirty, h .mem, h .fb, h .draws⟩

theorem Part.Same.trans {p : Part} {s t u : State} (h : p.Same s t) (g : p.Same t u) : p.Same s u := by
  cases p with
  | V | stack | fb => exact fun j => (g j).trans (h j)
  | mem => exact ⟨g.1.trans h.1, fun a => (g.2 a).trans (h.2 a)⟩
  | _ => exact Eq.trans g h

theorem Keeps.refl (c : List Part) (s : State) : Keeps c s s := by simp [Keeps]

theorem Keeps.trans {c d : List Part} {s t u : State} (h : Keeps c s t) (g : Keeps d t u) : Keeps (c ++ d) s u := by
  rw [keeps_iff] at *
  intro p hp
  rw [List.mem_append, not_or] at hp
  exact (h p hp.1).trans (g p hp.2)

theorem Keeps.mono {c d : List Part} {s t : State} (h : Keeps c s t) (hcd : c ⊆ d) : Keeps d s t :=
  keeps_iff.2 fun p hp => keeps_iff.1 h p fun hc => hp (hcd hc)

/-! ### The frame of each named update -/

section
variable (s : State)

theorem keeps_setReg (x : Nib) (b : Byte) : Keeps [.V] s (s.setReg x b) := by simp [Keeps]
theorem keeps_setResultFlag (x : Nib) (r f : Byte) : Keeps [.V] s (s.setResultFlag x r f) := by simp [Keeps]
theorem keeps_setI (v : Word) : Keeps [.I] s (s.setI v) := by simp [Keeps]
theorem keeps_setPc (v : Word) : Keeps [.pc] s (s.setPc v) := by simp [Keeps]
theorem keeps_setDT (v : Byte) : Keeps [.DT] s (s.setDT v) := by simp [Keeps]
theorem keeps_setST (v : Byte) : Keeps [.ST] s (s.setST v) := by simp [Keeps]
theorem keeps_setKeys (v : Word) : Keeps [.keys] s (s.setKeys v) := by simp [Keeps]
theorem keeps_setWait (v : Bool) : Keeps [.wait] s (s.setWait v) := by simp [Keeps]
theorem keeps_setDirty (v : Bool) : Keeps [.dirty] s (s.setDirty v) := by simp [Keeps]
theorem keeps_setFb (v : Vector Byte 256) : Keeps [.fb] s (s.setFb v) := by simp [Keeps]
theorem keeps_memWrite (a : Nat) (b : Byte) : Keeps [.mem] s (s.memWrite a b) := by simp [Keeps]
theorem keeps_drawByte : Keeps [.draws] s s.drawByte.2 := by simp [Keeps]
theorem keeps_tick : Keeps [.DT, .ST] s s.tick := by simp [Keeps]

theorem keeps_skipIf (c : Bool) : Keeps [.pc] s (s.skipIf c) := by
  rw [State.skipIf_eq]
  exact keeps_setPc s _

theorem keeps_storeBlock (k : Nat) : Keeps [.mem] s (s.storeBlock k) := by
  induction k with
  | zero => exact .refl _ s
  | succ j ih => exact (ih.trans (keeps_memWrite _ _ _)).mono (by simp)

theorem keeps_loadBlock (k : Nat) : Keeps [.V] s (s.loadBlock k) := by
  induction k with
  | zero => exact .refl _ s
  | succ j ih => exact (ih.trans (keeps_setReg _ _ _)).mono (by simp)

end

/-! ### Which parts an instruction writes -/

/-- The parts of the state that step 4 of the instruction's cycle may write. -/
def Instr.writes : Instr → List Part
  | .sys _ => []
  | .cls => [.fb, .dirty]
  | .drwVxVyN _ _ _ => [.fb, .V, .dirty]
  | .ret => [.sp, .pc]
  | .call _ => [.stack, .sp, .pc]
  | .jp _ | .jpV0Nnn _ | .seVxKk _ _ | .sneVxKk _ _ | .seVxVy _ _ _ | .sneVxVy _ _ _ | .skpVx _ | .sknpVx _ => [.pc]
  | .ldVxKk _ _ | .addVxKk _ _ | .ldVxVy _ _ | .orVxVy _ _ | .andVxVy _ _ | .xorVxVy _ _ | .addVxVy _ _ | .subVxVy _ _
  | .shrVx _ _ | .subnVxVy _ _ | .shlVx _ _ | .ldVxDt _ | .ldVxMem _ => [.V]
  | .rndVxKk _ _ => [.draws, .V]
  | .ldINnn _ | .addIVx _ | .ldFVx _ => [.I]
  | .ldBVx _ | .ldMemVx _ => [.mem]
  | .ldVxK _ => [.V, .pc, .keys, .wait]
  | .ldDtVx _ => [.DT]
  | .ldStVx _ => [.ST]

/-- An instruction changes no part of the state but those it writes. -/
theorem exec_keeps {i : Instr} {s u : State} (h : exec i s = .next u) : Keeps i.writes s u := by
  cases i with
  | ret =>
    rcases execRet_cases h with ⟨rfl, _⟩ | ⟨k, _, rfl⟩
    · exact .refl _ _
    · simp [Keeps, Instr.writes, State.reg, State.stackAt, State.memRead]
  | call nnn =>
    rcases execCall_cases h with ⟨rfl, _⟩ | ⟨hl, k, _, rfl⟩
    · exact .refl _ _
    · simp [Keeps, Instr.writes, State.reg, State.memRead]
  | ldVxK x =>
    rcases execLdVxK_cases h with ⟨_, rfl⟩ | ⟨_, rfl⟩ <;> simp [Keeps, Instr.writes]
  | sys nnn =>
    obtain rfl := Host.Outcome.next.inj h
    exact .refl _ _
  | cls =>
    obtain rfl := Host.Outcome.next.inj h
    exact (keeps_setFb _ _).trans (keeps_setDirty _ _)
  | drwVxVyN x y n =>
    obtain rfl := Host.Outcome.next.inj h
    exact ((keeps_setFb _ _).trans (keeps_setReg _ _ _)).trans (keeps_setDirty _ _)
  | jp | jpV0Nnn =>
    obtain rfl := Host.Outcome.next.inj h
    exact keeps_setPc _ _
  | seVxKk | sneVxKk | seVxVy | sneVxVy | skpVx | sknpVx =>
    obtain rfl := Host.Outcome.next.inj h
    exact keeps_skipIf _ _
  | ldVxKk | addVxKk | ldVxVy | orVxVy | andVxVy | xorVxVy | ldVxDt =>
    obtain rfl := Host.Outcome.next.inj h
    exact keeps_setReg _ _ _
  | addVxVy | subVxVy | shrVx | subnVxVy | shlVx =>
    obtain rfl := Host.Outcome.next.inj h
    exact keeps_setResultFlag _ _ _ _
  | rndVxKk x kk =>
    obtain rfl := Host.Outcome.next.inj h
    exact (keeps_drawByte _).trans (keeps_setReg _ _ _)
  | ldINnn | addIVx | ldFVx =>
    obtain rfl := Host.Outcome.next.inj h
    exact keeps_setI _ _
  | ldBVx x =>
    obtain rfl := Host.Outcome.next.inj h
    exact (((keeps_memWrite _ _ _).trans (keeps_memWrite _ _ _)).trans (keeps_memWrite _ _ _)).mono (by simp [Instr.writes])
  | ldMemVx x =>
    obtain rfl := Host.Outcome.next.inj h
    exact keeps_storeBlock _ _
  | ldVxMem x =>
    obtain rfl := Host.Outcome.next.inj h
    exact keeps_loadBlock _ _
  | ldDtVx x =>
    obtain rfl := Host.Outcome.next.inj h
    exact keeps_setDT _ _
  | ldStVx x =>
    obtain rfl := Host.Outcome.next.inj h
    exact keeps_setST _ _

/-- A whole cycle changes no part of the state but `pc`, the timers and what its instruction writes. -/
theorem cycle_keeps {i : Instr} {s t : State} (h : Cycle i s t) : Keeps (.pc :: i.writes ++ [.DT, .ST]) s t := by
  obtain ⟨hf, hs⟩ := h
  obtain ⟨u, hu, rfl⟩ := step_cases_of_fetched hf hs
  exact ((keeps_setPc s _).trans (exec_keeps hu)).trans (keeps_tick u)

/-- A cycle leaves the given parts of the state (`pc` and the timers aside), or ran an instruction that writes one of them. -/
theorem step_same_or_writes {s t : State} (h : step s = .next t) (ps : List Part)
    (hps : ∀ p ∈ ps, p ∉ [Part.pc, .DT, .ST]) :
    (∀ p ∈ ps, p.Same s t) ∨ ∃ i, Cycle i s t ∧ ∃ p ∈ ps, p ∈ i.writes := by
  rcases step_cases h with ⟨i, _, hf, _⟩ | ⟨_, _, rfl⟩
  · by_cases hw : ∃ p ∈ ps, p ∈ i.writes
    · exact .inr ⟨i, ⟨hf, h⟩, hw⟩
    · refine .inl fun p hp => keeps_iff.1 (cycle_keeps ⟨hf, h⟩) p fun hc => ?_
      have hcycle := hps p hp
      simp only [List.cons_append, List.mem_cons, List.mem_append] at hc hcycle
      exact hw ⟨p, hp, by tauto⟩
  · exact .inl fun p hp => keeps_iff.1 ((keeps_setPc s _).trans (keeps_tick _)) p (hps p hp)

/-! ### The writers of each part -/

theorem keys_mem_writes {i : Instr} : .keys ∈ i.writes ↔ ∃ x, i = .ldVxK x := by cases i <;> simp [Instr.writes]

theorem wait_mem_writes {i : Instr} : .wait ∈ i.writes ↔ ∃ x, i = .ldVxK x := by cases i <;> simp [Instr.writes]

theorem mem_mem_writes {i : Instr} : .mem ∈ i.writes ↔ ∃ x, i = .ldBVx x ∨ i = .ldMemVx x := by
  cases i <;> simp [Instr.writes]

theorem I_mem_writes {i : Instr} : .I ∈ i.writes ↔ (∃ nnn, i = .ldINnn nnn) ∨ ∃ x, i = .addIVx x ∨ i = .ldFVx x := by
  cases i <;> simp [Instr.writes]

theorem sp_or_stack_mem_writes {i : Instr} : (.sp ∈ i.writes ∨ .stack ∈ i.writes) ↔ (∃ nnn, i = .call nnn) ∨ i = .ret := by
  cases i <;> simp [Instr.writes]

theorem dirty_or_fb_mem_writes {i : Instr} :
    (.dirty ∈ i.writes ∨ .fb ∈ i.writes) ↔ i = .cls ∨ ∃ x y n, i = .drwVxVyN x y n := by
  cases i <;> simp [Instr.writes]

/-! ### The statements about one part: keys, display, stack, memory, `I` -/

/-- Settles O18: of the two cases of the wait-for-key instruction, the one that finds a key clears the latch. -/
theorem onlyWaitForKeyConsumesKeys : Obligations.OnlyWaitForKeyConsumesKeys := by
  intro s t h
  rcases step_same_or_writes h [.keys] (by decide) with hsame | ⟨i, ⟨hf, _⟩, p, hp, hw⟩
  · exact .inl (hsame .keys (by simp))
  · obtain rfl := List.mem_singleton.1 hp
    obtain ⟨x, rfl⟩ := keys_mem_writes.1 hw
    obtain ⟨u, hu, rfl⟩ := step_cases_of_fetched hf h
    rcases execLdVxK_cases hu with ⟨_, rfl⟩ | ⟨hk, rfl⟩
    · exact .inl rfl
    · exact .inr ⟨rfl, hk, x, hf⟩

/-- Settles O19: CLS and DRW are the only writers of `dirty` and `fb`, and both set `dirty`. -/
theorem onlyDisplayInstructionsDraw : Obligations.OnlyDisplayInstructionsDraw := by
  intro s t h
  rcases step_same_or_writes h [.dirty, .fb] (by decide) with hsame | ⟨i, ⟨hf, _⟩, hw⟩
  · exact .inr ⟨hsame .dirty (by simp), hsame .fb (by simp)⟩
  · obtain ⟨u, hu, rfl⟩ := step_cases_of_fetched hf h
    rcases dirty_or_fb_mem_writes.1 (by simpa using hw) with rfl | ⟨x, y, n, rfl⟩
    · obtain rfl := Host.Outcome.next.inj hu
      exact .inl ⟨rfl, .inl hf⟩
    · obtain rfl := Host.Outcome.next.inj hu
      exact .inl ⟨rfl, .inr ⟨x, y, n, hf⟩⟩

/-- Settles O20: CALL and RET are the only writers of `sp` and `stack`, and each does what its two cases say. -/
theorem onlyCallAndRetMoveTheStack : Obligations.OnlyCallAndRetMoveTheStack := by
  intro s t h
  rcases step_same_or_writes h [.sp, .stack] (by decide) with hsame | ⟨i, ⟨hf, _⟩, hw⟩
  · exact .inl ⟨hsame .sp (by simp), hsame .stack (by simp)⟩
  · obtain ⟨u, hu, rfl⟩ := step_cases_of_fetched hf h
    rcases sp_or_stack_mem_writes.1 (by simpa using hw) with ⟨nnn, rfl⟩ | rfl
    · rcases execCall_cases hu with ⟨rfl, _⟩ | ⟨hl, k, hk, rfl⟩
      · exact .inl ⟨rfl, fun _ => rfl⟩
      · exact .inr (.inl ⟨⟨nnn, hf⟩, hl, hk, fun j hj => (State.stackAt_set s _ j _ k hl).trans (if_neg hj)⟩)
    · rcases execRet_cases hu with ⟨rfl, _⟩ | ⟨k, hk, rfl⟩
      · exact .inl ⟨rfl, fun _ => rfl⟩
      · simp only [State.setPc_sp] at hk
        exact .inr (.inr ⟨hf, by omega, by simp only [State.tick_sp]; omega, fun _ => rfl⟩)

/-- Settles O21: the two stores are the only writers of `mem`. -/
theorem onlyStoresWriteMemory : Obligations.OnlyStoresWriteMemory := by
  intro s t h
  rcases step_same_or_writes h [.mem] (by decide) with hsame | ⟨i, ⟨hf, _⟩, p, hp, hw⟩
  · exact .inr (hsame .mem (by simp))
  · obtain rfl := List.mem_singleton.1 hp
    obtain ⟨x, rfl | rfl⟩ := mem_mem_writes.1 hw
    · exact .inl ⟨x, .inl hf⟩
    · exact .inl ⟨x, .inr hf⟩

/-- Settles O22: the three index instructions are the only writers of `I`. -/
theorem onlyIndexInstructionsWriteI : Obligations.OnlyIndexInstructionsWriteI := by
  intro s t h
  rcases step_same_or_writes h [.I] (by decide) with hsame | ⟨i, ⟨hf, _⟩, p, hp, hw⟩
  · exact .inl (hsame .I (by simp))
  · obtain rfl := List.mem_singleton.1 hp
    rcases I_mem_writes.1 hw with ⟨nnn, rfl⟩ | ⟨x, rfl | rfl⟩
    · exact .inr (.inl ⟨nnn, hf⟩)
    · exact .inr (.inr ⟨x, .inl hf⟩)
    · exact .inr (.inr ⟨x, .inr hf⟩)

/-! ### The wait flag (R32) -/

/-- A wait-for-key cycle that ends with `wait` set has gone back to its own instruction and left memory (R224). -/
theorem stall_of_wait {s t : State} {x : Nib} (h : Cycle (.ldVxK x) s t) (hw : t.wait = true) :
    t.pc = s.pc ∧ t.mem = s.mem := by
  obtain ⟨u, hu, rfl⟩ := step_cases_of_fetched h.1 h.2
  rcases execLdVxK_cases hu with ⟨_, rfl⟩ | ⟨_, rfl⟩
  · simp
  · simp at hw

/-- Settles O14: a cycle that ends with `wait` set is a stalled wait-for-key, whose word the next fetch finds again; any other
cycle leaves `wait`, so it was set before, and then the invariant says that the cycle was a wait-for-key after all. -/
theorem cycleKeepsWaitMeansBlocked : Obligations.CycleKeepsWaitMeansBlocked := by
  intro s t hinv h hw
  have hat : AtWaitForKey s := by
    rcases step_same_or_writes h [.wait] (by decide) with hsame | ⟨i, ⟨hf, _⟩, p, hp, hwr⟩
    · have hwait : t.wait = s.wait := hsame .wait (by simp)
      exact hinv (hwait ▸ hw)
    · obtain rfl := List.mem_singleton.1 hp
      obtain ⟨x, rfl⟩ := wait_mem_writes.1 hwr
      exact ⟨x, hf⟩
  obtain ⟨x, hf⟩ := hat
  obtain ⟨hpc, hmem⟩ := stall_of_wait ⟨hf, h⟩ hw
  refine ⟨x, ?_⟩
  rw [Fetches, fetchWord_congr hmem hpc]
  exact hf

/-! ### The program counter (R26) -/

/-- An instruction that does not write `pc` goes on to the next word. -/
theorem pcAfter_of_not_writes_pc {i : Instr} (s : State) (h : .pc ∉ i.writes) :
    pcAfter i s = (s.pc.toNat + 2) % 65536 := by
  cases i with
  | jp | call | ret | jpV0Nnn | seVxKk | sneVxKk | seVxVy | sneVxVy | skpVx | sknpVx | ldVxK => simp [Instr.writes] at h
  | _ => rfl

/-- `pc` after a skip, from the state with `pc` already advanced (R129). -/
theorem skipIf_pc_toNat (s : State) (c : Bool) : ((s.setPc (s.pc + 2)).skipIf c).pc.toNat =
    if c then (s.pc.toNat + 4) % 65536 else (s.pc.toNat + 2) % 65536 := by
  cases c
  · exact BitVec.toNat_add s.pc 2
  · simp [BitVec.toNat_add, Nat.add_assoc]

/-- Step 4 of a cycle, on the advanced state, leaves in `pc` what the table of R26 says. -/
theorem exec_pc {i : Instr} {s u : State} (h : exec i (s.setPc (s.pc + 2)) = .next u) : u.pc.toNat = pcAfter i s := by
  have hseq : (s.pc + 2).toNat = (s.pc.toNat + 2) % 65536 := BitVec.toNat_add s.pc 2
  by_cases hw : .pc ∈ i.writes
  · cases i with
    | jp nnn =>
      obtain rfl := Host.Outcome.next.inj h
      exact zextAddr_toNat nnn
    | jpV0Nnn nnn =>
      obtain rfl := Host.Outcome.next.inj h
      simp [pcAfter, BitVec.toNat_add]
    | call nnn =>
      rcases execCall_cases h with ⟨rfl, hfull⟩ | ⟨hroom, k, _, rfl⟩
      · rw [State.setPc_sp] at hfull
        exact hseq.trans (if_neg (by omega)).symm
      · exact (zextAddr_toNat nnn).trans (if_pos hroom).symm
    | ret =>
      rcases execRet_cases h with ⟨rfl, hempty⟩ | ⟨k, hk, rfl⟩
      · exact hseq.trans (if_pos hempty).symm
      · rw [State.setPc_sp] at hk
        simp [pcAfter, ← hk]
    | seVxKk | sneVxKk | seVxVy | sneVxVy =>
      obtain rfl := Host.Outcome.next.inj h
      exact skipIf_pc_toNat s _
    | skpVx | sknpVx =>
      obtain rfl := Host.Outcome.next.inj h
      rw [skipIf_pc_toNat, keySet_eq, lowNibble_toNat]
      rfl
    | ldVxK x =>
      rcases execLdVxK_cases h with ⟨hk, rfl⟩ | ⟨hk, rfl⟩
      · have hback : s.pc + 2 - 2 = s.pc := BitVec.add_sub_cancel s.pc 2
        exact (congrArg BitVec.toNat hback).trans (if_pos hk).symm
      · exact hseq.trans (if_neg hk).symm
    | _ => simp [Instr.writes] at hw
  · have hpc : u.pc = s.pc + 2 := keeps_iff.1 (exec_keeps h) .pc hw
    rw [hpc, hseq, pcAfter_of_not_writes_pc s hw]

/-- Settles O11: the tick after the instruction leaves `pc`. -/
theorem programCounterAfterCycle : Obligations.ProgramCounterAfterCycle := by
  intro s t i ⟨hf, hs⟩
  obtain ⟨u, hu, rfl⟩ := step_cases_of_fetched hf hs
  exact (exec_pc hu :)

/-! ### `VF` (R22) -/

/-- A block load that may not write `VF` stops before it (R185). -/
theorem blockCount_le_fifteen {x : Nib} {s : State} (h : mayWriteVf (.ldVxMem x) s = false) :
    blockCount x s.I ≤ 15 := by
  have hx : x = vf → 4096 ≤ s.I.toNat + 15 := by simpa [mayWriteVf] using h
  have hlt : x.toNat < 16 := x.isLt
  unfold blockCount
  by_cases hxv : x = vf
  · have := hx hxv
    omega
  · have : x.toNat ≠ 15 := fun e => hxv (BitVec.eq_of_toNat_eq e)
    omega

/-- An instruction that is no flag producer and does not have `VF` as a register it writes leaves `VF`. -/
theorem exec_keeps_vf {i : Instr} {s u : State} (h : exec i s = .next u) (hvf : mayWriteVf i s = false) :
    u.reg vf = s.reg vf := by
  by_cases hw : .V ∈ i.writes
  · cases i with
    | ldVxKk x | addVxKk x | ldVxVy x | orVxVy x | andVxVy x | xorVxVy x | ldVxDt x | rndVxKk x =>
      obtain rfl := Host.Outcome.next.inj h
      exact State.reg_setReg_other _ _ (Ne.symm (by simpa [mayWriteVf] using hvf))
    | ldVxK x =>
      rcases execLdVxK_cases h with ⟨_, rfl⟩ | ⟨hk, rfl⟩
      · rfl
      · have hx : x ≠ vf := fun e => hk (by simpa [mayWriteVf, e] using hvf)
        exact State.reg_setReg_other _ _ hx.symm
    | ldVxMem x =>
      obtain rfl := Host.Outcome.next.inj h
      have hcount := blockCount_le_fifteen hvf
      exact (State.reg_loadBlock s _ (by omega) vf).trans (if_neg (by simp; omega))
    | addVxVy | subVxVy | shrVx | subnVxVy | shlVx | drwVxVyN => simp [mayWriteVf] at hvf
    | _ => simp [Instr.writes] at hw
  · exact keeps_iff.1 (exec_keeps h) .V hw vf

/-- Whether an instruction may write `VF` does not hang on `pc`. -/
theorem mayWriteVf_setPc (i : Instr) (s : State) (v : Word) : mayWriteVf i (s.setPc v) = mayWriteVf i s := by
  cases i <;> rfl

/-- Settles O23: the advance of `pc` before the instruction and the tick after it leave every register. -/
theorem onlyFlagWritersChangeVf : Obligations.OnlyFlagWritersChangeVf := by
  intro s t i ⟨hf, hs⟩ hvf
  obtain ⟨u, hu, rfl⟩ := step_cases_of_fetched hf hs
  exact (exec_keeps_vf hu (by rw [mayWriteVf_setPc, hvf]) :)

/-! ### What no cycle reads (R37) -/

/-- The parts of the state that no cycle reads, with the stack, of which a cycle reads only the entries below `sp`. -/
structure Unread where
  ST : Byte
  wait : Bool
  dirty : Bool
  stack : Vector Word 16

/-- The unread parts of a state. -/
def unread (s : State) : Unread := ⟨s.ST, s.wait, s.dirty, s.stack⟩

/-- A state with its unread parts replaced. -/
def withUnread (s : State) (k : Unread) : State := { s with ST := k.ST, wait := k.wait, dirty := k.dirty, stack := k.stack }

/-- The replacement leaves the stack entries below `sp`, which RET does read. -/
def LiveStack (s : State) (k : Unread) : Prop := ∀ j < s.sp.val, (withUnread s k).stackAt j = s.stackAt j

/-- Of two runs whose unread parts go from `a` and `b` to `a'` and `b'`: a part that is the same in both before is so after. -/
structure StaySame (a b a' b' : Unread) : Prop where
  ST : b.ST = a.ST → b'.ST = a'.ST
  wait : b.wait = a.wait → b'.wait = a'.wait
  dirty : b.dirty = a.dirty → b'.dirty = a'.dirty
  stack : b.stack = a.stack → b'.stack = a'.stack

theorem StaySame.refl (a b : Unread) : StaySame a b a b := ⟨id, id, id, id⟩

/-- The run from `s` with the unread parts `k`, which ends in `v`, and the run from `s` itself, which ends in `u`, end alike
but for unread parts. -/
def EndAlike (s : State) (k : Unread) (u v : State) : Prop :=
  ∃ k', v = withUnread u k' ∧ LiveStack u k' ∧ StaySame (unread s) k (unread u) k'

section
variable {s : State} {k : Unread}

theorem endAlike_skipIf (hl : LiveStack s k) (c : Bool) : EndAlike s k (s.skipIf c) ((withUnread s k).skipIf c) := by
  cases c <;> exact ⟨k, rfl, hl, .refl _ _⟩

theorem endAlike_storeBlock (hl : LiveStack s k) (n : Nat) :
    EndAlike s k (s.storeBlock n) ((withUnread s k).storeBlock n) := by
  rw [State.storeBlock_eq s, State.storeBlock_eq (withUnread s k),
    State.storeBlock_mem_congr (s := s) (t := withUnread s k) rfl rfl rfl]
  exact ⟨k, rfl, hl, .refl _ _⟩

theorem endAlike_loadBlock (hl : LiveStack s k) (n : Nat) :
    EndAlike s k (s.loadBlock n) ((withUnread s k).loadBlock n) := by
  rw [State.loadBlock_eq s, State.loadBlock_eq (withUnread s k),
    State.loadBlock_V_congr (s := s) (t := withUnread s k) rfl rfl rfl]
  exact ⟨k, rfl, hl, .refl _ _⟩

/-- The tick at the end of both runs counts the unread sound timer down in both. -/
theorem EndAlike.tick {u v : State} (h : EndAlike s k u v) : EndAlike s k u.tick v.tick := by
  obtain ⟨k', rfl, hl, hST, hwait, hdirty, hstack⟩ := h
  exact ⟨{ k' with ST := countDown k'.ST }, rfl, hl, fun e => congrArg countDown (hST e), hwait, hdirty, hstack⟩

/-- The push of a CALL writes the same value to the same slot in both runs, so that the entries below the new `sp` agree. -/
theorem endAlike_push (hl : LiveStack s k) (v pc : Word) (sp : Fin 17) (hroom : s.sp.val < 16)
    (hsp : sp.val = s.sp.val + 1) :
    EndAlike s k { s with stack := s.stack.set s.sp.val v hroom, sp := sp, pc := pc }
      { withUnread s k with stack := k.stack.set s.sp.val v hroom, sp := sp, pc := pc } := by
  refine ⟨{ k with stack := k.stack.set s.sp.val v hroom }, rfl, fun j hj => ?_, id, id, id,
    fun e => congrArg (·.set s.sp.val v hroom) e⟩
  refine ((withUnread s k).stackAt_set _ j v sp hroom).trans (Eq.trans ?_ (s.stackAt_set _ j v sp hroom).symm)
  by_cases hjsp : j = s.sp.val
  · rw [if_pos hjsp, if_pos hjsp]
  · rw [if_neg hjsp, if_neg hjsp, hl j (by simp only [hsp] at hj; omega)]

/-- An instruction ends alike from states that are alike but for unread parts: it reads none of them. -/
theorem exec_withUnread {i : Instr} {u : State} (h : exec i s = .next u) (hl : LiveStack s k) :
    ∃ v, exec i (withUnread s k) = .next v ∧ EndAlike s k u v := by
  cases i with
  | cls =>
    obtain rfl := Host.Outcome.next.inj h
    exact ⟨_, rfl, { k with dirty := true }, rfl, hl, id, id, fun _ => rfl, id⟩
  | drwVxVyN x y n =>
    obtain rfl := Host.Outcome.next.inj h
    refine ⟨_, rfl, { k with dirty := true }, ?_, hl, id, id, fun _ => rfl, id⟩
    rw [drawRows_congr (s := s) (t := withUnread s k) rfl rfl rfl]
    rfl
  | seVxKk | sneVxKk | seVxVy | sneVxVy | skpVx | sknpVx =>
    obtain rfl := Host.Outcome.next.inj h
    exact ⟨_, rfl, endAlike_skipIf hl _⟩
  | ldMemVx x =>
    obtain rfl := Host.Outcome.next.inj h
    exact ⟨_, rfl, endAlike_storeBlock hl _⟩
  | ldVxMem x =>
    obtain rfl := Host.Outcome.next.inj h
    exact ⟨_, rfl, endAlike_loadBlock hl _⟩
  | ldStVx x =>
    obtain rfl := Host.Outcome.next.inj h
    exact ⟨_, rfl, { k with ST := s.reg x }, rfl, hl, fun _ => rfl, id, id, id⟩
  | ldVxK x =>
    rcases execLdVxK_cases h with ⟨hk, rfl⟩ | ⟨hk, rfl⟩
    · exact ⟨_, execLdVxK_stalls x hk, { k with wait := true }, rfl, hl, id, fun _ => rfl, id, id⟩
    · exact ⟨_, execLdVxK_takes x hk, { k with wait := false }, rfl, hl, id, fun _ => rfl, id, id⟩
  | call nnn =>
    rcases execCall_cases h with ⟨rfl, hfull⟩ | ⟨hroom, sp, hsp, rfl⟩
    · exact ⟨_, execCall_full nnn hfull, k, rfl, hl, .refl _ _⟩
    · exact ⟨_, execCall_pushes (s := withUnread s k) nnn hroom hsp, endAlike_push hl _ _ sp hroom hsp⟩
  | ret =>
    rcases execRet_cases h with ⟨rfl, hempty⟩ | ⟨sp, hsp, rfl⟩
    · exact ⟨_, execRet_empty hempty, k, rfl, hl, .refl _ _⟩
    · refine ⟨_, execRet_pops hsp, k, ?_, fun j hj => hl j (by simp only at hj; omega), .refl _ _⟩
      rw [hl sp.val (by omega)]
      rfl
  | _ =>
    obtain rfl := Host.Outcome.next.inj h
    exact ⟨_, rfl, k, rfl, hl, .refl _ _⟩

/-- A cycle ends alike from states that are alike but for unread parts. -/
theorem step_withUnread {t : State} (h : step s = .next t) (hl : LiveStack s k) :
    ∃ v, step (withUnread s k) = .next v ∧ EndAlike s k t v := by
  have hfetch : fetchWord (withUnread s k) = fetchWord s := rfl
  rcases step_cases h with ⟨i, u, hf, hu, rfl⟩ | ⟨r, hf, rfl⟩
  · obtain ⟨v, hv, halike⟩ := exec_withUnread (k := k) hu hl
    exact ⟨v.tick, step_of_fetched (hfetch ▸ hf) hv, halike.tick⟩
  · have halike : EndAlike s k (s.setPc (s.pc + 2)) ((withUnread s k).setPc (s.pc + 2)) := ⟨k, rfl, hl, .refl _ _⟩
    exact ⟨_, step_of_unlisted (hfetch ▸ hf), halike.tick⟩

end

/-- Settles O24: the two states have the same stack, so they end with the same stack. -/
theorem soundWaitDirtyUnobservable : Obligations.SoundWaitDirtyUnobservable := by
  intro s t st w d h
  obtain ⟨_, hv, k', rfl, _, hsame⟩ := step_withUnread (k := ⟨st, w, d, s.stack⟩) h fun _ _ => rfl
  have hstack : k'.stack = t.stack := hsame.stack rfl
  refine ⟨_, hv, ?_⟩
  simp only [withUnread, hstack]

/-- Settles O25: the two states have the same sound timer and flags, so they end with the same, and the live entries agree. -/
theorem deadStackEntriesUnobservable : Obligations.DeadStackEntriesUnobservable := by
  rintro s s' t ⟨hs', hlive⟩ h
  have hk : s' = withUnread s ⟨s.ST, s.wait, s.dirty, s'.stack⟩ := hs'
  obtain ⟨_, hv, k', rfl, hl, hsame⟩ := step_withUnread (k := ⟨s.ST, s.wait, s.dirty, s'.stack⟩) h hlive
  have hST : k'.ST = t.ST := hsame.ST rfl
  have hwait : k'.wait = t.wait := hsame.wait rfl
  have hdirty : k'.dirty = t.dirty := hsame.dirty rfl
  refine ⟨_, hk ▸ hv, ?_, hl⟩
  simp only [withUnread, hST, hwait, hdirty]

/-! ### Reset (R38) -/

/-- The font region reads as `FONT_DATA` (R69). -/
theorem unlisted_font {j : Nat} (h : j < 80) : unlisted (params.fontBase + j) = params.fontData.getD j 0 := by
  unfold unlisted
  rw [if_pos (by omega), Nat.add_sub_cancel_left]

/-- Every address outside the font region reads as 0 (R69). -/
theorem unlisted_outside_font {a : Nat} (h : a < params.fontBase ∨ params.fontBase + 80 ≤ a) : unlisted a = 0 := by
  unfold unlisted
  rw [if_neg (by omega)]

/-- Settles O15: memory lists no cell, and `wait` is not set. -/
theorem resetMeetsInvariants : Obligations.ResetMeetsInvariants where
  memWf := State.reset_mem_wf
  waiting := fun h => by cases h

/-- The host's Reset keeps every part of the state after reset but the count of draws. -/
theorem hostReset_keeps (s : State) : Keeps [.draws] State.reset (hostReset s) :=
  keeps_iff.2 fun p hp => by
    cases p with
    | draws => simp at hp
    | V | stack | fb => exact fun _ => rfl
    | mem => exact ⟨rfl, fun _ => rfl⟩
    | _ => rfl

/-- Settles O17, line by line of R38. -/
theorem resetState : Obligations.ResetState := by
  refine ⟨State.reset_reg, rfl, rfl, rfl, State.reset_stackAt, rfl, rfl, rfl, rfl, rfl, fbRead_cleared, ?_, ?_,
    fun s => ⟨_, rfl, hostReset_keeps s⟩⟩
  · intro j hj
    have hbase : params.fontBase = 0 := rfl
    rw [State.memRead_reset, Nat.mod_eq_of_lt (by omega), unlisted_font hj]
  · intro a ha hout
    rw [State.memRead_reset, Nat.mod_eq_of_lt ha, unlisted_outside_font hout]

end Sys2Proof
end

section
/-! PROOFS. The statements of spec/20_memory.md: big-endian fetch, the fetch of a stored instruction, and the canonical form of
memory, which every cycle and every host move keep. -/

namespace Sys2Proof

open Sys2Proof.Machine

/-! ### The canonical form of memory (R60) -/

/-- The two stores write memory byte by byte, each byte keeping the form; every other instruction leaves memory. -/
theorem exec_keeps_mem_wf {i : Instr} {s u : State} (hm : s.mem.wf) (h : exec i s = .next u) : u.mem.wf := by
  by_cases hw : .mem ∈ i.writes
  · obtain ⟨x, rfl | rfl⟩ := mem_mem_writes.1 hw
    · obtain rfl := Host.Outcome.next.inj h
      exact State.memWrite_wf _ _ _ (State.memWrite_wf _ _ _ (State.memWrite_wf _ _ _ hm))
    · obtain rfl := Host.Outcome.next.inj h
      exact State.storeBlock_wf _ _ hm
  · obtain ⟨hmem, _⟩ : Part.mem.Same s u := keeps_iff.1 (exec_keeps h) .mem hw
    exact hmem ▸ hm

theorem step_keeps_mem_wf {s t : State} (hm : s.mem.wf) (h : step s = .next t) : t.mem.wf := by
  rcases step_cases h with ⟨i, u, _, hu, rfl⟩ | ⟨_, _, rfl⟩
  · have hran : u.mem.wf := exec_keeps_mem_wf (s := s.setPc (s.pc + 2)) hm hu
    exact hran
  · exact hm

/-- A load that answers a next state fits, and stores its bytes (R274). -/
theorem hostLoad_cases {off : Nat} {bytes : List Byte} {s t : State} (h : hostLoad off bytes s = .next t) :
    off + bytes.length ≤ 4096 ∧ t = s.loadBytes off bytes := by
  unfold hostLoad at h
  split at h
  · rename_i hfit
    exact ⟨hfit, (Host.Outcome.next.inj h).symm⟩
  · cases h

theorem hostMove_keeps_mem_wf {m : HostMove} {s t : State} (hm : s.mem.wf) (h : hostMove m s = .next t) : t.mem.wf := by
  cases m with
  | writeKeys | clearDirty =>
    obtain rfl := Host.Outcome.next.inj h
    exact hm
  | load | loadWords =>
    obtain ⟨_, rfl⟩ := hostLoad_cases h
    exact State.loadBytes_wf _ _ _ hm
  | reset =>
    obtain rfl := Host.Outcome.next.inj h
    exact State.reset_mem_wf

/-- Settles O13: memory changes only byte by byte, in the two stores and the host's loads, or back to its reset contents. -/
theorem cycleKeepsMemoryCanonical : Obligations.CycleKeepsMemoryCanonical :=
  ⟨fun _ _ => step_keeps_mem_wf, fun _ _ _ => hostMove_keeps_mem_wf⟩

/-! ### The fetch of a stored instruction (R75) -/

/-- The two bytes at `I` after a block store of at least two bytes that fits below 4096. -/
theorem memRead2_storeBlock {s : State} {k : Nat} (hm : s.mem.wf) (hk : 2 ≤ k) (hfit : s.I.toNat + k ≤ 4096) :
    (s.storeBlock k).memRead2 s.I.toNat = wordOfBytes (s.reg 0) (s.reg 1) := by
  have h0 : (s.storeBlock k).memRead s.I.toNat = s.reg 0 := s.memRead_storeBlock_at k 0 hm (by omega) hfit
  have h1 : (s.storeBlock k).memRead (s.I.toNat + 1) = s.reg 1 := s.memRead_storeBlock_at k 1 hm (by omega) hfit
  rw [State.memRead2, h0, h1]

/-- A block transfer of at least `V0` and `V1` at an `I` below 4095 moves both (R185). -/
theorem two_le_blockCount {x : Nib} {i : Word} (hx : 1 ≤ x.toNat) (hi : i.toNat < 4095) : 2 ≤ blockCount x i := by
  unfold blockCount
  omega

/-- Settles O26: the cycle stores `V0` and `V1` at `I`, and the tick after it leaves memory, so a fetch at `I` reads them. -/
theorem storedInstructionIsFetched : Obligations.StoredInstructionIsFetched := by
  intro s t x hm ⟨hf, hs⟩ hx hI hpc
  obtain ⟨u, hu, rfl⟩ := step_cases_of_fetched hf hs
  obtain rfl := Host.Outcome.next.inj hu
  have hcount := two_le_blockCount hx hI
  have hfit := blockCount_fits x s.I (by omega)
  rw [fetchWord, hpc]
  exact memRead2_storeBlock (s := s.setPc (s.pc + 2)) hm hcount hfit

/-! ### Big-endian fetch (R61 to R63) -/

/-- The word of two bytes, in numbers: the first one is the high half (R61). -/
theorem wordOfBytes_toNat (hi lo : Byte) : (wordOfBytes hi lo).toNat = hi.toNat * 256 + lo.toNat := by
  rw [wordOfBytes, BitVec.toNat_append, ← Nat.shiftLeft_add_eq_or_of_lt lo.isLt, Nat.shiftLeft_eq]

/-- Settles O7: each byte's address is reduced on its own, and `pc` may be even or odd. -/
theorem fetchIsBigEndianAtAnyPc : Obligations.FetchIsBigEndianAtAnyPc :=
  fun s => wordOfBytes_toNat (s.memRead s.pc.toNat) (s.memRead (s.pc.toNat + 1))

end Sys2Proof
end

section
/-! PROOFS. The statements of spec/30_encoding.md: `decodeWord` and `encode` are inverse to each other on the well-formed
instructions, the words left over are exactly `OfNoRow`, and the opcode map agrees with both. -/

namespace Sys2Proof

open Sys2Proof.Machine

/-! ### Decode after encode (R96, R97) -/

/-- An address field that is neither that of CLS nor that of RET is a SYS (decision D2). -/
theorem decodeGroup0_sys {w : Word} (hcls : fieldNnn w ≠ 0x0E0) (hret : fieldNnn w ≠ 0x0EE) :
    decodeGroup0 w = .sys (fieldNnn w) := by
  unfold decodeGroup0
  split
  · contradiction
  · contradiction
  · rfl

theorem sys_wellFormed_iff {nnn : Addr} : (Instr.sys nnn).wellFormed = true ↔ nnn ≠ 0x0E0 ∧ nnn ≠ 0x0EE := by
  simp [Instr.wellFormed]

/-- The fields of the word are the operands of the instruction, and the fixed ones lead the decoder to its row. -/
theorem decodeWord_encode {i : Instr} (h : i.wellFormed = true) : decodeWord (encode i) = .ok i := by
  cases i with
  | cls | ret => rfl
  | sys nnn =>
    obtain ⟨hcls, hret⟩ := sys_wellFormed_iff.1 h
    have hgroup : decodeGroup0 (0x0#4 ++ nnn) = .sys nnn := by
      simpa using decodeGroup0_sys (w := 0x0#4 ++ nnn) (by simpa) (by simpa)
    simp [encode, decodeWord, hgroup]
  | jp | call | ldINnn | jpV0Nnn => simp [encode, decodeWord]
  | seVxKk | sneVxKk | ldVxKk | addVxKk | rndVxKk => simp [encode, decodeWord]
  | seVxVy | sneVxVy | drwVxVyN => simp [encode, decodeWord]
  | ldVxVy | orVxVy | andVxVy | xorVxVy | addVxVy | subVxVy | shrVx | subnVxVy | shlVx =>
    simp [encode, decodeWord, decodeGroup8]
  | skpVx | sknpVx => simp [encode, decodeWord, decodeGroupE]
  | ldVxDt | ldVxK | ldDtVx | ldStVx | addIVx | ldFVx | ldBVx | ldMemVx | ldVxMem =>
    simp [encode, decodeWord, decodeGroupF]

/-- Settles O1: the only terms that do not come back are the two SYS terms with the words of CLS and RET. -/
theorem decodeOfEncodeIsIdentity : Obligations.DecodeOfEncodeIsIdentity :=
  fun _ => decodeWord_encode

/-! ### What each group of the decoder answers (R95) -/

/-- The instruction is well-formed and `w` is its word. -/
def IsWordOf (w : Word) (i : Instr) : Prop := encode i = w ∧ i.wellFormed = true

/-- The low nibbles of the rows of group 8. -/
def group8Keys : List Nib := [0x0, 0x1, 0x2, 0x3, 0x4, 0x5, 0x6, 0x7, 0xE]

/-- The low bytes of the rows of group E. -/
def groupEKeys : List Byte := [0x9E, 0xA1]

/-- The low bytes of the rows of group F. -/
def groupFKeys : List Byte := [0x07, 0x0A, 0x15, 0x18, 0x1E, 0x29, 0x33, 0x55, 0x65]

/-- Row 36 in terms of the fields: groups 8, E and F are the only ones with words of no row (R98). -/
def OfNoRow (w : Word) : Prop :=
  (fieldOp w = 0x8 ∧ fieldN w ∉ group8Keys) ∨ (fieldOp w = 0xE ∧ fieldKk w ∉ groupEKeys) ∨
  (fieldOp w = 0xF ∧ fieldKk w ∉ groupFKeys)

/-- The answer `d` is right for `w`: it is the instruction whose word is `w`, or the error that names `w`, which is of no row. -/
def Answers (w : Word) (d : Except DecodeRefusal Instr) : Prop :=
  (∃ i, d = .ok i ∧ IsWordOf w i) ∨ (d = .error (.unlisted w) ∧ OfNoRow w)

section
variable {w : Word}

theorem word_of_nnn {op : Nib} (h : fieldOp w = op) : op ++ fieldNnn w = w := h ▸ word_eq_nnn w

theorem word_of_xkk {op : Nib} (h : fieldOp w = op) : op ++ fieldX w ++ fieldKk w = w := h ▸ word_eq_xkk w

theorem word_of_xyn {op : Nib} (h : fieldOp w = op) : op ++ fieldX w ++ fieldY w ++ fieldN w = w := h ▸ word_eq_xyn w

theorem word_of_nnn_fixed {op : Nib} {nnn : Addr} (hop : fieldOp w = op) (hnnn : fieldNnn w = nnn) : op ++ nnn = w :=
  hnnn ▸ word_of_nnn hop

theorem word_of_kk_fixed {op : Nib} {kk : Byte} (hop : fieldOp w = op) (hkk : fieldKk w = kk) :
    op ++ fieldX w ++ kk = w := hkk ▸ word_of_xkk hop

theorem word_of_n_fixed {op n : Nib} (hop : fieldOp w = op) (hn : fieldN w = n) :
    op ++ fieldX w ++ fieldY w ++ n = w := hn ▸ word_of_xyn hop

theorem decodeGroup0_isWordOf (hop : fieldOp w = 0x0) : IsWordOf w (decodeGroup0 w) := by
  unfold decodeGroup0
  split
  · rename_i hnnn
    exact ⟨word_of_nnn_fixed hop hnnn, rfl⟩
  · rename_i hnnn
    exact ⟨word_of_nnn_fixed hop hnnn, rfl⟩
  · rename_i hcls hret
    exact ⟨word_of_nnn hop, sys_wellFormed_iff.2 ⟨hcls, hret⟩⟩

theorem decodeGroup8_answers (hop : fieldOp w = 0x8) : Answers w (decodeGroup8 w) := by
  unfold decodeGroup8
  split
  case h_10 => exact .inr ⟨rfl, .inl ⟨hop, by simp_all [group8Keys]⟩⟩
  all_goals
    rename_i hn
    exact .inl ⟨_, rfl, word_of_n_fixed hop hn, rfl⟩

theorem decodeGroupE_answers (hop : fieldOp w = 0xE) : Answers w (decodeGroupE w) := by
  unfold decodeGroupE
  split
  case h_3 => exact .inr ⟨rfl, .inr (.inl ⟨hop, by simp_all [groupEKeys]⟩)⟩
  all_goals
    rename_i hkk
    exact .inl ⟨_, rfl, word_of_kk_fixed hop hkk, rfl⟩

theorem decodeGroupF_answers (hop : fieldOp w = 0xF) : Answers w (decodeGroupF w) := by
  unfold decodeGroupF
  split
  case h_10 => exact .inr ⟨rfl, .inr (.inr ⟨hop, by simp_all [groupFKeys]⟩)⟩
  all_goals
    rename_i hkk
    exact .inl ⟨_, rfl, word_of_kk_fixed hop hkk, rfl⟩

end

/-- Everything the decoder can answer (R95 to R98). -/
theorem decodeWord_answers (w : Word) : Answers w (decodeWord w) := by
  unfold decodeWord
  split
  next hop => exact .inl ⟨_, rfl, decodeGroup0_isWordOf hop⟩
  next hop => exact .inl ⟨_, rfl, word_of_nnn hop, rfl⟩
  next hop => exact .inl ⟨_, rfl, word_of_nnn hop, rfl⟩
  next hop => exact .inl ⟨_, rfl, word_of_xkk hop, rfl⟩
  next hop => exact .inl ⟨_, rfl, word_of_xkk hop, rfl⟩
  next hop => exact .inl ⟨_, rfl, word_of_xyn hop, rfl⟩
  next hop => exact .inl ⟨_, rfl, word_of_xkk hop, rfl⟩
  next hop => exact .inl ⟨_, rfl, word_of_xkk hop, rfl⟩
  next hop => exact decodeGroup8_answers hop
  next hop => exact .inl ⟨_, rfl, word_of_xyn hop, rfl⟩
  next hop => exact .inl ⟨_, rfl, word_of_nnn hop, rfl⟩
  next hop => exact .inl ⟨_, rfl, word_of_nnn hop, rfl⟩
  next hop => exact .inl ⟨_, rfl, word_of_xkk hop, rfl⟩
  next hop => exact .inl ⟨_, rfl, word_of_xyn hop, rfl⟩
  next hop => exact decodeGroupE_answers hop
  next =>
    have hop : fieldOp w = 0xF := by
      simp only [imp_false] at *
      bv_omega
    exact decodeGroupF_answers hop

theorem isWordOf_of_decodeWord {w : Word} {i : Instr} (h : decodeWord w = .ok i) : IsWordOf w i := by
  obtain ⟨j, hj, hw⟩ | ⟨he, _⟩ := decodeWord_answers w
  · cases hj.symm.trans h
    exact hw
  · cases he.symm.trans h

theorem ofNoRow_of_decodeWord {w : Word} {r : DecodeRefusal} (h : decodeWord w = .error r) :
    r = .unlisted w ∧ OfNoRow w := by
  obtain ⟨j, hj, _⟩ | ⟨he, hw⟩ := decodeWord_answers w
  · cases hj.symm.trans h
  · cases he.symm.trans h
    exact ⟨rfl, hw⟩

/-- Settles O2: in each row of the decoder the operands are the fields of the word, and the fixed fields are the word's own. -/
theorem encodeOfDecodeIsIdentity : Obligations.EncodeOfDecodeIsIdentity :=
  fun _ _ => isWordOf_of_decodeWord

theorem decodeWord_eq_ok_iff {w : Word} {i : Instr} : decodeWord w = .ok i ↔ IsWordOf w i :=
  ⟨isWordOf_of_decodeWord, fun ⟨hw, hwf⟩ => hw ▸ decodeWord_encode hwf⟩

/-! ### The opcode map (R96) -/

/-- The word carries the fixed bits of the row. -/
def Selects (w : Word) (r : OpcodeRow) : Prop := w &&& r.mask = r.bits

/-- A field that the mask covers is the field of the row's fixed bits. -/
theorem Selects.field {w : Word} {r : OpcodeRow} {lo len : Nat} (h : Selects w r)
    (hm : r.mask.extractLsb' lo len = BitVec.allOnes len) : w.extractLsb' lo len = r.bits.extractLsb' lo len := by
  rw [← h, BitVec.extractLsb'_and, hm, BitVec.and_allOnes]

/-- What the masks of the map fix: `op` in every row, and in the rows of groups 8, E and F the group's own key. -/
theorem opcodeMap_keys : ∀ r ∈ opcodeMap, fieldOp r.mask = 0xF ∧
    (fieldOp r.bits = 0x8 → fieldN r.mask = 0xF ∧ fieldN r.bits ∈ group8Keys) ∧
    (fieldOp r.bits = 0xE → fieldKk r.mask = 0xFF ∧ fieldKk r.bits ∈ groupEKeys) ∧
    (fieldOp r.bits = 0xF → fieldKk r.mask = 0xFF ∧ fieldKk r.bits ∈ groupFKeys) := by decide

/-- The row that a word selects has the word's key, and no row has the key of a word of no row. -/
theorem not_selects_of_ofNoRow {w : Word} (hw : OfNoRow w) : ∀ r ∈ opcodeMap, ¬ Selects w r := by
  intro r hr hsel
  obtain ⟨hmask, h8, hE, hF⟩ := opcodeMap_keys r hr
  have hop : fieldOp w = fieldOp r.bits := hsel.field hmask
  rw [← hop] at h8 hE hF
  rcases hw with ⟨hw8, hkey⟩ | ⟨hwE, hkey⟩ | ⟨hwF, hkey⟩
  · obtain ⟨hm, hbits⟩ := h8 hw8
    have hn : fieldN w = fieldN r.bits := hsel.field hm
    exact hkey (hn ▸ hbits)
  · obtain ⟨hm, hbits⟩ := hE hwE
    have hkk : fieldKk w = fieldKk r.bits := hsel.field hm
    exact hkey (hkk ▸ hbits)
  · obtain ⟨hm, hbits⟩ := hF hwF
    have hkk : fieldKk w = fieldKk r.bits := hsel.field hm
    exact hkey (hkk ▸ hbits)

theorem firstRow_of_ofNoRow {w : Word} (hw : OfNoRow w) : firstRow w = 35 :=
  List.findIdx_eq_length.2 fun r hr => beq_false_of_ne (not_selects_of_ofNoRow hw r hr)

open Laws.EncodeFitsRow in
/-- The word of an instruction selects the instruction's own row. -/
theorem encode_selects_rowOf : ∀ i : Instr, ∃ r, opcodeMap[rowOf i]? = some r ∧ Selects (encode i) r
  | .cls => cls
  | .ret => ret
  | .sys nnn => sys nnn
  | .jp nnn => jp nnn
  | .call nnn => call nnn
  | .seVxKk x kk => seVxKk x kk
  | .sneVxKk x kk => sneVxKk x kk
  | .seVxVy x y n => seVxVy x y n
  | .ldVxKk x kk => ldVxKk x kk
  | .addVxKk x kk => addVxKk x kk
  | .ldVxVy x y => ldVxVy x y
  | .orVxVy x y => orVxVy x y
  | .andVxVy x y => andVxVy x y
  | .xorVxVy x y => xorVxVy x y
  | .addVxVy x y => addVxVy x y
  | .subVxVy x y => subVxVy x y
  | .shrVx x y => shrVx x y
  | .subnVxVy x y => subnVxVy x y
  | .shlVx x y => shlVx x y
  | .sneVxVy x y n => sneVxVy x y n
  | .ldINnn nnn => ldINnn nnn
  | .jpV0Nnn nnn => jpV0Nnn nnn
  | .rndVxKk x kk => rndVxKk x kk
  | .drwVxVyN x y n => drwVxVyN x y n
  | .skpVx x => skpVx x
  | .sknpVx x => sknpVx x
  | .ldVxDt x => ldVxDt x
  | .ldVxK x => ldVxK x
  | .ldDtVx x => ldDtVx x
  | .ldStVx x => ldStVx x
  | .addIVx x => addIVx x
  | .ldFVx x => ldFVx x
  | .ldBVx x => ldBVx x
  | .ldMemVx x => ldMemVx x
  | .ldVxMem x => ldVxMem x

/-- The decoder answers an error exactly on the words of no row, and the error names the word. -/
theorem decodeWord_eq_error_iff {w : Word} {r : DecodeRefusal} :
    decodeWord w = .error r ↔ r = .unlisted w ∧ OfNoRow w := by
  refine ⟨ofNoRow_of_decodeWord, ?_⟩
  rintro ⟨rfl, hw⟩
  obtain ⟨i, _, hi, _⟩ | ⟨he, _⟩ := decodeWord_answers w
  · obtain ⟨r, hr, hsel⟩ := encode_selects_rowOf i
    exact absurd (hi ▸ hsel) (not_selects_of_ofNoRow hw r (List.mem_of_getElem? hr))
  · exact he

/-- Two rows that one word selects agree on the bits that both fix. -/
theorem Selects.agree {w : Word} {r q : OpcodeRow} (hr : Selects w r) (hq : Selects w q) :
    r.bits &&& q.mask = q.bits &&& r.mask := by
  rw [← hr, ← hq, BitVec.and_assoc, BitVec.and_comm r.mask, BitVec.and_assoc]

/-- The only rows with a word in common are those of CLS and RET with that of SYS: of any two others, the later one fixes a
bit that the earlier one fixes the other way. -/
theorem opcodeMap_disjoint : ∀ k j : Fin opcodeMap.length, k.val ≠ 2 → j < k →
    opcodeMap[j].bits &&& opcodeMap[k].mask ≠ opcodeMap[k].bits &&& opcodeMap[j].mask := by decide

/-- A word that selects a row and an earlier one is that of CLS or RET, and the later row is that of SYS. -/
theorem cls_or_ret_of_selects_two {w : Word} {k j : Fin opcodeMap.length} (hjk : j < k)
    (hj : Selects w opcodeMap[j]) (hk : Selects w opcodeMap[k]) : k.val = 2 ∧ (w = 0x00E0 ∨ w = 0x00EE) := by
  have hk2 : k.val = 2 := by
    by_contra hne
    exact opcodeMap_disjoint k j hne hjk (hj.agree hk)
  refine ⟨hk2, ?_⟩
  have hfull : ∀ {v : Word}, w &&& 0xFFFF = v → w = v := fun h => BitVec.and_allOnes.symm.trans h
  match j with
  | ⟨0, _⟩ => exact .inl (hfull hj)
  | ⟨1, _⟩ => exact .inr (hfull hj)
  | ⟨j + 2, _⟩ =>
    rw [Fin.lt_def] at hjk
    simp only at hjk
    omega

/-- The row of a well-formed instruction is the first that its word selects: the words of CLS and RET decode to these two, so no
SYS has them. -/
theorem firstRow_encode {i : Instr} (hwf : i.wellFormed = true) : firstRow (encode i) = rowOf i := by
  obtain ⟨r, hr, hsel⟩ := encode_selects_rowOf i
  obtain ⟨hlt, rfl⟩ := List.getElem?_eq_some_iff.1 hr
  refine (List.findIdx_eq hlt).2 ⟨beq_iff_eq.2 hsel, fun j hj => beq_false_of_ne fun hearlier => ?_⟩
  obtain ⟨hsys, hw⟩ := cls_or_ret_of_selects_two (k := ⟨rowOf i, hlt⟩) (j := ⟨j, hj.trans hlt⟩) hj hearlier hsel
  have hdec := decodeWord_encode hwf
  rcases hw with hw | hw
  all_goals
    rw [hw] at hdec
    cases hdec
    cases hsys

/-- Settles O3: by O2 the word is the word of the instruction, whose row is the first it selects; a word of no row selects
none. -/
theorem decoderFollowsOpcodeMap : Obligations.DecoderFollowsOpcodeMap := by
  refine fun w => ⟨fun i h => ?_, fun r h => ?_⟩
  · obtain ⟨rfl, hwf⟩ := isWordOf_of_decodeWord h
    exact firstRow_encode hwf
  · obtain ⟨hr, hw⟩ := decodeWord_eq_error_iff.1 h
    exact ⟨firstRow_of_ofNoRow hw, hr⟩

/-! ### The words of no effect (R98) -/

theorem fieldOp_toNat (w : Word) : (fieldOp w).toNat = w.toNat / 4096 := by
  have := w.isLt
  simp [fieldOp, BitVec.extractLsb'_toNat, Nat.shiftRight_eq_div_pow]
  omega

theorem fieldN_toNat (w : Word) : (fieldN w).toNat = w.toNat % 16 := by
  simp [fieldN, BitVec.extractLsb'_toNat]

theorem fieldKk_toNat (w : Word) : (fieldKk w).toNat = w.toNat % 256 := by
  simp [fieldKk, BitVec.extractLsb'_toNat]

theorem fieldOp_eq_iff (w : Word) (op : Nib) : fieldOp w = op ↔ w.toNat / 4096 = op.toNat := by
  rw [← fieldOp_toNat, BitVec.toNat_inj]

/-- `OfNoRow` in numbers, the list of R98. -/
theorem ofNoRow_iff (w : Word) : OfNoRow w ↔
    (w.toNat / 4096 = 8 ∧ w.toNat % 16 ∈ [8, 9, 0xA, 0xB, 0xC, 0xD, 0xF]) ∨
    (w.toNat / 4096 = 0xE ∧ w.toNat % 256 ∉ [0x9E, 0xA1]) ∨
    (w.toNat / 4096 = 0xF ∧ w.toNat % 256 ∉ [0x07, 0x0A, 0x15, 0x18, 0x1E, 0x29, 0x33, 0x55, 0x65]) := by
  have h8 : ∀ n : Nib, n ∉ group8Keys ↔ n.toNat ∈ [8, 9, 0xA, 0xB, 0xC, 0xD, 0xF] := by decide
  have hbyte (kk : Byte) (l : List Byte) : kk ∉ l ↔ kk.toNat ∉ l.map BitVec.toNat :=
    not_congr (List.mem_map_of_injective BitVec.toNat_injective).symm
  rw [OfNoRow, h8, hbyte, hbyte, fieldOp_eq_iff, fieldOp_eq_iff, fieldOp_eq_iff, fieldN_toNat, fieldKk_toNat]
  rfl

theorem encode_sys_toNat (nnn : Addr) : (encode (.sys nnn)).toNat = nnn.toNat :=
  (BitVec.toNat_append 0x0#4 nnn).trans (by simp)

/-- Settles O4: the words of the well-formed SYS terms, and the words of no row. -/
theorem noOpWordsAreExactly : Obligations.NoOpWordsAreExactly := by
  refine fun w => ⟨⟨?_, ?_⟩, ?_⟩
  · rintro ⟨nnn, h⟩
    obtain ⟨rfl, hwf⟩ := decodeWord_eq_ok_iff.1 h
    obtain ⟨hcls, hret⟩ := sys_wellFormed_iff.1 hwf
    rw [encode_sys_toNat]
    exact ⟨nnn.isLt, by bv_omega, by bv_omega⟩
  · rintro ⟨hlt, hcls, hret⟩
    refine ⟨.ofNat 12 w.toNat, decodeWord_eq_ok_iff.2 ⟨BitVec.eq_of_toNat_eq ?_, sys_wellFormed_iff.2 ⟨?_, ?_⟩⟩⟩
    · rw [encode_sys_toNat, BitVec.toNat_ofNat, Nat.mod_eq_of_lt hlt]
    · bv_omega
    · bv_omega
  · rw [← ofNoRow_iff]
    simp only [decodeWord_eq_error_iff, exists_eq_left]

/-! ### Two bytes (R91) -/

/-- Whatever decodes from a list of bytes is the instruction of its first two, and the rest is what follows them. -/
theorem decodeBytes_eq_ok_iff {hi lo : Byte} {rest rest' : List Byte} {i : Instr} :
    decodeBytes (hi :: lo :: rest) = .ok (i, rest') ↔ decodeWord (wordOfBytes hi lo) = .ok i ∧ rest = rest' := by
  cases h : decodeWord (wordOfBytes hi lo) <;> simp [decodeBytes, h]

/-- Settles O5: the two bytes make up the word again, and a list with fewer than two bytes has no word. -/
theorem everyInstructionIsTwoBytes : Obligations.EveryInstructionIsTwoBytes := by
  refine ⟨fun i rest hwf => ⟨rfl, ?_⟩, fun bytes rest i h => ?_, fun bytes hlt => ?_⟩
  · refine decodeBytes_eq_ok_iff.2 ⟨?_, rfl⟩
    rw [wordOfBytes_hi_lo]
    exact decodeWord_encode hwf
  · match bytes with
    | [] | [_] => cases h
    | _ :: _ :: _ =>
      obtain ⟨_, rfl⟩ := decodeBytes_eq_ok_iff.1 h
      rfl
  · match bytes with
    | [] | [_] => rfl
    | _ :: _ :: _ => simp at hlt

/-! ### Worked words (R104) -/

/-- Settles O6: each word is the word of its instruction, and the last one is of no row. -/
theorem workedEncodingsDecode : Obligations.WorkedEncodingsDecode :=
  ⟨decodeWord_encode (i := .ldVxKk 0 0x11) rfl, decodeWord_encode (i := .cls) rfl, decodeWord_encode (i := .jp 0x204) rfl,
    decodeWord_encode (i := .addVxVy 3 0xA) rfl, decodeWord_encode (i := .ldVxDt 0xB) rfl,
    decodeWord_encode (i := .drwVxVyN 1 2 5) rfl, decodeWord_encode (i := .ldBVx 5) rfl,
    decodeWord_encode (i := .skpVx 4) rfl, decodeWord_encode (i := .ret) rfl,
    decodeWord_eq_error_iff.2 ⟨rfl, .inl (by decide)⟩⟩

/-! ### The cycle (R90) -/

/-- The step of a fetched instruction, whatever the instruction answers. -/
theorem step_eq_endCycle {s : State} {i : Instr} (hf : Fetches s i) :
    step s = endCycle (some i) (s.setPc (s.pc + 2)) (exec i (s.setPc (s.pc + 2))) := by
  unfold Fetches at hf
  simp only [step, checkRange_eq, beginCycle_eq, hf]

/-- Settles O8: `endCycle` ticks both timers of the state that the instruction answers. -/
theorem stepRunsDecodedInstruction : Obligations.StepRunsDecodedInstruction := by
  intro s i h
  obtain ⟨hf, _⟩ := decodeBytes_eq_ok_iff.1 h
  have hpc : { s with pc := s.pc + 2 } = s.setPc (s.pc + 2) := rfl
  rw [hpc, step_eq_endCycle hf]
  cases exec i (s.setPc (s.pc + 2)) <;> rfl

end Sys2Proof
end

section
/-! PROOFS. The statements of spec/40_flow.md: what a jump, a call, a return, a skip and a no-op do, each from what its
instruction answers (`exec`) and the parts it writes (`Instr.writes`). -/

namespace Sys2Proof

open Sys2Proof.Machine

/-! ### Completion and frames -/

/-- An instruction that answers `u` completes, with the parts it writes as its frame. -/
theorem completes_of_exec {i : Instr} {s u : State} {P : State → Prop} (h : exec i s = .next u) (hP : P u) :
    Completes i s i.writes P := ⟨u, h, exec_keeps h, hP⟩

/-- A part that is in `t` as it was in `s` can be left out of the changed ones. -/
theorem Keeps.drop_same {p : Part} {c : List Part} {s t : State} (h : Keeps (p :: c) s t) (hp : p.Same s t) :
    Keeps c s t :=
  keeps_iff.2 fun q hq => by
    by_cases hqp : q = p
    · exact hqp ▸ hp
    · exact keeps_iff.1 h q (by simp [hqp, hq])

/-! ### No-ops and jumps (R121, R123, R131) -/

/-- Settles O9: the step of a word of no row is the advance of `pc` and the tick. -/
theorem unknownWordCycleIsNoOp : Obligations.UnknownWordCycleIsNoOp :=
  fun s _ hf => ⟨_, step_of_unlisted hf, (keeps_setPc s _).trans (keeps_tick _), rfl, countDown_toNat s.DT,
    countDown_toNat s.ST⟩

/-- Settles O30: SYS answers the state it runs on. -/
theorem sysDoesNothing : Obligations.SysDoesNothing :=
  fun _ _ => completes_of_exec rfl trivial

/-- What a JP leaves in `pc` (R123, R94). -/
theorem setPc_zextAddr_pc_toNat (s : State) (nnn : Addr) : (s.setPc (zextAddr nnn)).pc.toNat = nnn.toNat :=
  zextAddr_toNat nnn

/-- Settles O31: the target is a 12-bit number; where it is the JP's own address, the cycle ends with the old `pc`, so that the
timers alone are left to change. -/
theorem jumpGoesToAddress : Obligations.JumpGoesToAddress := by
  refine ⟨fun nnn => decodeWord_encode (i := .jp nnn) rfl, fun nnn s => ?_, fun nnn s hf hself => ?_⟩
  · have hpc := setPc_zextAddr_pc_toNat s nnn
    exact completes_of_exec rfl ⟨hpc, hpc ▸ nnn.isLt⟩
  · have hstep := step_of_fetched hf (t := (s.setPc (s.pc + 2)).setPc (zextAddr nnn)) rfl
    have hback : zextAddr nnn = s.pc := BitVec.eq_of_toNat_eq ((zextAddr_toNat nnn).trans hself.symm)
    have hframe := (cycle_keeps ⟨hf, hstep⟩).drop_same hback
    exact ⟨_, hstep, hframe.drop_same hback, countDown_toNat s.DT, countDown_toNat s.ST⟩

/-- Settles O36: a byte and a 12-bit number add up to at most 0x10FE, so the sum does not wrap. -/
theorem indexedJumpAddsV0 : Obligations.IndexedJumpAddsV0 := by
  intro nnn s
  have hv := (s.reg 0).isLt
  have hnnn := nnn.isLt
  have hsum : (zextByte (s.reg 0) + zextAddr nnn).toNat = (s.reg 0).toNat + nnn.toNat := by
    rw [BitVec.toNat_add, zextByte_toNat, zextAddr_toNat]
    omega
  exact completes_of_exec rfl ⟨hsum, hsum.trans_le (by omega)⟩

/-! ### Skips (R125 to R129) -/

/-- `pc` after a skip on equality (R129). -/
theorem skipIf_beq_pc_toNat (s : State) (a b : Byte) :
    (s.skipIf (a == b)).pc.toNat = if a = b then (s.pc.toNat + 2) % 65536 else s.pc.toNat := by
  by_cases h : a = b
  · simp [h, BitVec.toNat_add]
  · simp [h]

/-- `pc` after a skip on inequality (R129). -/
theorem skipIf_bne_pc_toNat (s : State) (a b : Byte) :
    (s.skipIf (a != b)).pc.toNat = if a = b then s.pc.toNat else (s.pc.toNat + 2) % 65536 := by
  by_cases h : a = b
  · simp [h]
  · simp [h, BitVec.toNat_add]

/-- Settles O34: the two are skips on equality and inequality of `V[x]` and `kk`. -/
theorem immediateSkips : Obligations.ImmediateSkips :=
  fun x kk s => ⟨decodeWord_encode (i := .seVxKk x kk) rfl, decodeWord_encode (i := .sneVxKk x kk) rfl,
    completes_of_exec rfl (skipIf_beq_pc_toNat s _ _), completes_of_exec rfl (skipIf_bne_pc_toNat s _ _)⟩

/-- Settles O35: the two are skips on equality and inequality of `V[x]` and `V[y]`, which are equal when `x = y`. -/
theorem registerSkips : Obligations.RegisterSkips := by
  intro x y n s
  have hse := skipIf_beq_pc_toNat s (s.reg x) (s.reg y)
  have hsne := skipIf_bne_pc_toNat s (s.reg x) (s.reg y)
  exact ⟨completes_of_exec rfl ⟨hse, fun hxy => hse.trans (if_pos (congrArg s.reg hxy))⟩,
    completes_of_exec rfl ⟨hsne, fun hxy => hsne.trans (if_pos (congrArg s.reg hxy))⟩⟩

/-! ### Calls and returns (R122, R124, R130) -/

/-- Settles O32: the two cases of a push. -/
theorem callPushesOrIsDropped : Obligations.CallPushesOrIsDropped := by
  intro nnn s
  split
  · rename_i hroom
    obtain ⟨k, hk⟩ : ∃ k : Fin 17, k.val = s.sp.val + 1 := ⟨⟨s.sp.val + 1, Nat.succ_lt_succ hroom⟩, rfl⟩
    have hpushes := execCall_pushes nnn hroom hk
    exact ⟨_, hpushes, (exec_keeps (i := .call nnn) hpushes).mono (by simp [Instr.writes]), zextAddr_toNat nnn, hk,
      fun j => s.stackAt_set _ j _ k hroom⟩
  · rename_i hfull
    exact ⟨s, execCall_full nnn (by omega), .refl _ _, trivial⟩

/-- Settles O33: the two cases of a pop. -/
theorem returnPopsOrIsDropped : Obligations.ReturnPopsOrIsDropped := by
  intro s
  split
  · rename_i hempty
    exact ⟨s, execRet_empty hempty, .refl _ _, trivial⟩
  · rename_i hused
    have hpops := execRet_pops (s := s) (k := ⟨s.sp.val - 1, by omega⟩) (by simp only; omega)
    exact ⟨_, hpops, (exec_keeps (i := .ret) hpops).mono (by simp [Instr.writes]), rfl, rfl⟩

/-- The cycle of a CALL on a stack that is not full leaves the address of the next instruction in the slot that `sp` held, and
`sp` one further (R124). -/
theorem call_cycle_pushes {nnn : Addr} {s t : State} (hroom : s.sp.val < 16) (h : Cycle (.call nnn) s t) :
    t.sp.val = s.sp.val + 1 ∧ t.stackAt s.sp.val = s.pc + 2 := by
  obtain ⟨hf, hs⟩ := h
  obtain ⟨u, hu, rfl⟩ := step_cases_of_fetched hf hs
  rcases execCall_cases hu with ⟨_, hfull⟩ | ⟨hl, k, hk, rfl⟩
  · rw [State.setPc_sp] at hfull
    omega
  · exact ⟨hk, (State.stackAt_set s _ _ _ k hl).trans (if_pos rfl)⟩

/-- The cycle of a RET with `sp` one above slot `k` goes to the entry in that slot and leaves `sp` at `k` (R122). -/
theorem ret_cycle_pops {k : Fin 17} {s t : State} (hk : s.sp.val = k.val + 1) (h : Cycle .ret s t) :
    t.pc = s.stackAt k.val ∧ t.sp = k := by
  obtain ⟨hf, hs⟩ := h
  have hpops : execRet (s.setPc (s.pc + 2)) = .next _ := execRet_pops hk.symm
  obtain rfl := Host.Outcome.next.inj ((step_of_fetched hf hpops).symm.trans hs)
  exact ⟨rfl, rfl⟩

/-- Settles O27: the RET pops the slot that the CALL pushed to. -/
theorem callThenReturnComesBack : Obligations.CallThenReturnComesBack := by
  intro s t u nnn hroom hcall hret
  obtain ⟨hsp, hslot⟩ := call_cycle_pushes hroom hcall
  obtain ⟨hpc, hsp'⟩ := ret_cycle_pops hsp hret
  exact ⟨hpc.trans hslot, hsp'⟩

end Sys2Proof
end

section
/-! PROOFS. The statements of spec/41_alu.md. Every instruction of the group either writes one register (`WritesReg`) or makes
the two writes of a flag producer (`State.setResultFlag`): each kind's completion is proved once, and what is left of a statement
is the value written. -/

namespace Sys2Proof

open Sys2Proof.Machine

/-! ### The write of one register -/

/-- Of the state in which an instruction completes, whatever follows from what is known of it holds. -/
theorem Completes.imp {i : Instr} {s : State} {c : List Part} {P Q : State → Prop} (h : Completes i s c P)
    (hPQ : ∀ t, P t → Q t) : Completes i s c Q := by
  obtain ⟨t, ht, hframe, hP⟩ := h
  exact ⟨t, ht, hframe, hPQ t hP⟩

theorem WritesReg.same {x : Nib} {b : Byte} {s t : State} (h : WritesReg x b s t) : t.reg x = b :=
  (h x).trans (if_pos rfl)

theorem WritesReg.other {x : Nib} {b : Byte} {s t : State} (h : WritesReg x b s t) : ∀ j, j ≠ x → t.reg j = s.reg j :=
  fun j hj => (h j).trans (if_neg hj)

/-- An instruction that answers a register write completes with the registers alone changed, and of these the written one. -/
theorem completes_of_setReg {i : Instr} {s : State} {x : Nib} {b : Byte} (h : exec i s = .next (s.setReg x b)) :
    Completes i s [.V] (WritesReg x b s) :=
  ⟨_, h, keeps_setReg s x b, (s.reg_setReg x · b)⟩

/-- Settles O37: the written value is `kk`. -/
theorem loadImmediate : Obligations.LoadImmediate :=
  fun x kk _ => ⟨decodeWord_encode (i := .ldVxKk x kk) rfl,
    (completes_of_setReg rfl).imp fun _ ht => ⟨ht, fun hx => ht.other vf hx.symm⟩⟩

/-- Settles O38: the written value is a sum of bytes, which wraps. -/
theorem addImmediateWraps : Obligations.AddImmediateWraps := by
  refine fun x kk s => ⟨decodeWord_encode (i := .addVxKk x kk) rfl, (completes_of_setReg rfl).imp fun t ht => ?_⟩
  refine ⟨?_, ht.other, ?_⟩
  · rw [ht.same, BitVec.toNat_add]
  · rintro rfl
    exact ht.same.trans (BitVec.add_zero _)

/-- Settles O39: the written value is that of `V[y]`. -/
theorem moveRegister : Obligations.MoveRegister :=
  fun _ _ _ => completes_of_setReg rfl

/-- Settles O40: each bit of the written value is the operation on the bits of the operands. -/
theorem logicOperations : Obligations.LogicOperations := by
  refine fun x y s => ⟨?_, ?_, ?_⟩
  · exact (completes_of_setReg rfl).imp fun t ht => ⟨fun _ => ht.same ▸ BitVec.getLsbD_or, ht.other⟩
  · exact (completes_of_setReg rfl).imp fun t ht => ⟨fun _ => ht.same ▸ BitVec.getLsbD_and, ht.other⟩
  · exact (completes_of_setReg rfl).imp fun t ht => ⟨fun _ => ht.same ▸ BitVec.getLsbD_xor, ht.other⟩

/-! ### The flags in numbers (R150, R160, R162) -/

theorem b2n_toNat (c : Bool) : (b2n c).toNat = c.toNat := by cases c <;> rfl

theorem b2n_decide_toNat (p : Prop) [Decidable p] : (b2n (decide p)).toNat = if p then 1 else 0 := by
  rw [b2n_toNat, Bool.toNat, Bool.cond_decide]

theorem carryFlag_toNat (a b : Byte) : (carryFlag a b).toNat = if a.toNat + b.toNat > 255 then 1 else 0 :=
  b2n_decide_toNat _

theorem notBorrowFlag_toNat (a b : Byte) : (notBorrowFlag a b).toNat = if a.toNat ≥ b.toNat then 1 else 0 :=
  b2n_decide_toNat _

theorem lowBitFlag_toNat (a : Byte) : (lowBitFlag a).toNat = a.toNat % 2 := by
  rw [lowBitFlag, b2n_toNat, BitVec.getLsbD, Nat.toNat_testBit, pow_zero, Nat.div_one]

theorem highBitFlag_toNat (a : Byte) : (highBitFlag a).toNat = a.toNat / 128 := by
  have := a.isLt
  rw [highBitFlag, b2n_toNat, BitVec.getLsbD, Nat.toNat_testBit]
  omega

/-! ### The results in numbers -/

/-- A subtraction wraps (R159, R161). -/
theorem byte_sub_toNat (a b : Byte) : (a - b).toNat = (a.toNat + 256 - b.toNat) % 256 := by
  have := b.isLt
  rw [BitVec.toNat_sub]
  omega

theorem byte_shiftRight_one_toNat (a : Byte) : (a >>> 1).toNat = a.toNat / 2 := by
  rw [BitVec.toNat_ushiftRight, Nat.shiftRight_eq_div_pow, pow_one]

theorem byte_shiftLeft_one_toNat (a : Byte) : (a <<< 1).toNat = a.toNat * 2 % 256 := by
  rw [BitVec.toNat_shiftLeft, Nat.shiftLeft_eq, pow_one]

/-! ### The two writes of a flag producer (R23, R151) -/

/-- An instruction that answers the two writes of a flag producer completes with the registers alone changed: the destination
holds the result unless it is `VF`, which holds the flag. -/
theorem completes_of_setResultFlag {i : Instr} {s : State} {x : Nib} {result flag : Byte} {r f : Nat}
    (h : exec i s = .next (s.setResultFlag x result flag)) (hr : result.toNat = r) (hf : flag.toNat = f) :
    Completes i s [.V] fun t =>
      (x ≠ vf → (t.reg x).toNat = r) ∧ (t.reg vf).toNat = f ∧ ∀ j, j ≠ x → j ≠ vf → t.reg j = s.reg j := by
  refine ⟨_, h, keeps_setResultFlag s x result flag, fun hx => ?_, ?_, fun j hjx hjvf => ?_⟩
  · rw [State.reg_setResultFlag, if_neg hx, if_pos rfl, hr]
  · rw [State.reg_setResultFlag, if_pos rfl, hf]
  · rw [State.reg_setResultFlag, if_neg hjvf, if_neg hjx]

/-- Settles O41: the result is the sum of the bytes, the flag its carry. -/
theorem addSetsCarry : Obligations.AddSetsCarry :=
  fun x y _ => ⟨decodeWord_encode (i := .addVxVy x y) rfl,
    completes_of_setResultFlag rfl (BitVec.toNat_add _ _) (carryFlag_toNat _ _)⟩

/-- Settles O42: the two differ in the order of the operands, of the result and of the flag. -/
theorem subtractSetsNotBorrow : Obligations.SubtractSetsNotBorrow :=
  fun _ _ _ => ⟨completes_of_setResultFlag rfl (byte_sub_toNat _ _) (notBorrowFlag_toNat _ _),
    completes_of_setResultFlag rfl (byte_sub_toNat _ _) (notBorrowFlag_toNat _ _)⟩

/-- Settles O43: the shifted register is `V[x]`, and the flag the bit that the result lacks. -/
theorem shiftsSetShiftedOutBit : Obligations.ShiftsSetShiftedOutBit :=
  fun _ _ _ => ⟨completes_of_setResultFlag rfl (byte_shiftRight_one_toNat _) (lowBitFlag_toNat _),
    completes_of_setResultFlag rfl (byte_shiftLeft_one_toNat _) (highBitFlag_toNat _)⟩

/-! ### The random byte (R163, R164) -/

/-- RND writes the drawn byte, masked, and counts the draw. -/
theorem execRndVxKk_completes (x : Nib) (kk : Byte) (s : State) :
    Completes (.rndVxKk x kk) s [.V, .draws] fun t =>
      WritesReg x (Config.draw s.draws &&& kk) s t ∧ t.draws = s.draws + 1 :=
  ⟨_, rfl, ((keeps_drawByte s).trans (keeps_setReg _ _ _)).mono (by simp), (s.drawByte.2.reg_setReg x · _), rfl⟩

/-- Settles O44: a bit of the mask that is 0 clears the bit of the result. -/
theorem randomByteIsMasked : Obligations.RandomByteIsMasked := by
  refine fun x kk s => ⟨decodeWord_encode (i := .rndVxKk x kk) rfl, (execRndVxKk_completes x kk s).imp ?_⟩
  rintro t ⟨hreg, hdraws⟩
  refine ⟨⟨_, rfl, hreg⟩, hdraws, fun k hk => ?_, ?_⟩
  · rw [hreg.same, BitVec.getLsbD_and, hk, Bool.and_false]
  · rintro rfl
    exact hreg.same.trans BitVec.and_zero

end Sys2Proof
end

section
/-! PROOFS. The statements of spec/42_index_memory.md. The three index instructions answer a write of `I`, so what is left of
a statement is the written value; the BCD store is three stores to three different addresses, and a block transfer moves `V[j]`
for each `j` below its count (`lt_blockCount_iff`). -/

namespace Sys2Proof

open Sys2Proof.Machine

/-! ### The index register (R181 to R183) -/

/-- Settles O45: a 12-bit number, zero-extended, is below 4096. -/
theorem loadIndex : Obligations.LoadIndex := by
  refine fun nnn s => ⟨decodeWord_encode (i := .ldINnn nnn) rfl, completes_of_exec rfl ?_⟩
  have hI : (zextAddr nnn).toNat = nnn.toNat := zextAddr_toNat nnn
  exact ⟨hI, hI ▸ nnn.isLt⟩

/-- Settles O46: the sum of `I` and a zero-extended byte is one of 16-bit words. -/
theorem addToIndexWraps : Obligations.AddToIndexWraps := by
  intro x s
  have hsum : (s.I + zextByte (s.reg x)).toNat = (s.I.toNat + (s.reg x).toNat) % 65536 := by
    rw [BitVec.toNat_add, zextByte_toNat]
  exact completes_of_exec rfl hsum

/-- The font fits below 4096 (R69). -/
theorem params_fontBase_le : params.fontBase ≤ 4016 := by decide

/-- The address of a glyph in numbers: with the font below 4096 it does not wrap (R183). -/
theorem glyphAddr_toNat (b : Byte) : (glyphAddr b).toNat = params.fontBase + 5 * (b.toNat % 16) := by
  have hbase := params_fontBase_le
  rw [glyphAddr, lowNibble_toNat, BitVec.toNat_ofNat, Nat.mod_eq_of_lt (by omega)]

/-- Settles O47: row `r` of glyph `d` is byte `5 * d + r` of the font. -/
theorem glyphAddressInI : Obligations.GlyphAddressInI := by
  intro x s
  have hI : (s.setI (glyphAddr (s.reg x))).I.toNat = params.fontBase + 5 * ((s.reg x).toNat % 16) := glyphAddr_toNat _
  refine completes_of_exec rfl ⟨hI, fun r hr => ?_⟩
  have hbase := params_fontBase_le
  rw [hI, State.memRead_reset, Nat.mod_eq_of_lt (by omega), Nat.add_assoc, unlisted_font (by omega)]

/-! ### The BCD store (R184) -/

theorem hundreds_toNat (v : Byte) : (hundreds v).toNat = v.toNat / 100 := BitVec.toNat_udiv

theorem tens_toNat (v : Byte) : (tens v).toNat = v.toNat / 10 % 10 := by
  rw [tens, BitVec.toNat_umod, BitVec.toNat_udiv]
  rfl

theorem units_toNat (v : Byte) : (units v).toNat = v.toNat % 10 := BitVec.toNat_umod

/-- LD B,Vx makes its three stores one after the other: a byte of memory is the last one stored at its address, if any. -/
theorem execLdBVx_completes (x : Nib) {s : State} (hm : s.mem.wf) :
    Completes (.ldBVx x) s [.mem] fun t => ∀ a, t.memRead a =
      if a % 4096 = s.ea 2 % 4096 then units (s.reg x)
      else if a % 4096 = s.ea 1 % 4096 then tens (s.reg x)
      else if a % 4096 = s.ea 0 % 4096 then hundreds (s.reg x)
      else s.memRead a := by
  have hm1 := s.memWrite_wf (s.ea 0) (hundreds (s.reg x)) hm
  have hm2 := State.memWrite_wf _ (s.ea 1) (tens (s.reg x)) hm1
  refine completes_of_exec rfl fun a => (State.memRead_memWrite _ _ a _ hm2).trans ?_
  rw [State.memRead_memWrite _ _ a _ hm1, s.memRead_memWrite _ a _ hm]

/-- Settles O48: `I`, `I + 1` and `I + 2` differ modulo 4096, so that no store hits the digit of another. -/
theorem bcdDigitsStored : Obligations.BcdDigitsStored := by
  refine fun x s hm => (execLdBVx_completes x hm).imp fun t hread => ?_
  have hea (j : Nat) : s.ea j = s.I.toNat + j := rfl
  simp only [hea] at hread
  refine ⟨?_, ?_, ?_, fun a ha hout => ?_⟩
  · rw [hread, if_neg (by omega), if_neg (by omega), if_pos (by omega), hundreds_toNat]
  · rw [hread, if_neg (by omega), if_pos rfl, tens_toNat]
  · rw [hread, if_pos rfl, units_toNat]
  · rw [← Nat.mod_eq_of_lt ha] at hout
    rw [hread, if_neg (hout 2 (by decide)), if_neg (hout 1 (by decide)), if_neg (hout 0 (by decide))]

/-! ### The block transfers (R185 to R187) -/

/-- A block transfer moves `V[k]` when the instruction names it and its address is below 4096. -/
theorem lt_blockCount_iff {x : Nib} {i : Word} {k : Nat} :
    k < blockCount x i ↔ k ≤ x.toNat ∧ i.toNat + k < 4096 := by
  unfold blockCount
  omega

/-- The register of a block transfer at a selector is the one it selects. -/
theorem regAt_toNat (s : State) (j : Nib) : s.regAt j.toNat = s.reg j := by
  rw [State.regAt, BitVec.ofNat_toNat, BitVec.setWidth_eq]

/-- Settles O49: the block that the count leaves fits below 4096, so that none of its addresses wraps. -/
theorem blockStoreIsClamped : Obligations.BlockStoreIsClamped := by
  refine fun x s hm => completes_of_exec rfl ⟨fun j hj hfit => ?_, fun a ha hout => ?_⟩
  · have hmoved : j.toNat < blockCount x s.I := lt_blockCount_iff.2 ⟨hj, hfit⟩
    have hread := s.memRead_storeBlock_at _ _ hm hmoved (blockCount_fits x s.I (by omega))
    exact hread.trans (regAt_toNat s j)
  · refine s.memRead_storeBlock_other _ a hm fun j hmoved => ?_
    obtain ⟨hj, hfit⟩ := lt_blockCount_iff.1 hmoved
    rw [Nat.mod_eq_of_lt ha, State.ea, Nat.mod_eq_of_lt hfit]
    exact hout j hj

/-- Settles O50: the loaded registers are those below the count. -/
theorem blockLoadIsClamped : Obligations.BlockLoadIsClamped := by
  refine fun x s => completes_of_exec rfl fun j => (s.reg_loadBlock _ (blockCount_le_sixteen x s.I) j).trans ?_
  simp only [lt_blockCount_iff, State.ea]

end Sys2Proof
end

section
/-! PROOFS. The statements of spec/43_display.md. DRW answers one drawing of `n` rows and one write of `VF`, so that the pixel
mapping and the collision law are `fbPixel_drawRows` and `hit_drawRows` at the operands of the instruction; drawing twice is the
mapping and the law applied to each of the two draws. -/

namespace Sys2Proof

open Sys2Proof.Machine

/-- Settles O51: the framebuffer that CLS writes reads zero everywhere. -/
theorem clearDisplay : Obligations.ClearDisplay :=
  ⟨decodeWord_encode (i := .cls) rfl, fun _ => completes_of_exec rfl ⟨fun p _ => fbRead_cleared p, rfl⟩⟩

/-! ### What a DRW writes and what it draws with (R201, R208) -/

theorem spriteX_lt (x : Nib) (s : State) : spriteX x s < 64 := Nat.mod_lt _ (by decide)

theorem spriteY_lt (y : Nib) (s : State) : spriteY y s < 32 := Nat.mod_lt _ (by decide)

section
variable {x y n : Nib} {s t : State} (h : exec (.drwVxVyN x y n) s = .next t)
include h

/-- Of the registers DRW writes `VF` alone, with the collision of its drawing. -/
theorem drw_writesReg : WritesReg vf (b2n (drawRows s (spriteX x s) (spriteY y s) n.toNat).hit) s t := by
  obtain rfl := Host.Outcome.next.inj h
  exact (State.reg_setReg (s.setFb _) vf · _)

/-- The framebuffer that DRW writes is that of its drawing. -/
theorem drw_fb : t.fb = (drawRows s (spriteX x s) (spriteY y s) n.toNat).fb := by
  obtain rfl := Host.Outcome.next.inj h
  rfl

/-- A draw leaves the sprite that it draws: it writes neither `I` nor memory. -/
theorem drw_spriteBit (i r : Nat) : spriteBit t i r = spriteBit s i r := by
  have hframe := keeps_iff.1 (exec_keeps h)
  have hI : t.I = s.I := hframe .I (by simp [Instr.writes])
  have hmem : t.mem = s.mem ∧ ∀ a, t.memRead a = s.memRead a := hframe .mem (by simp [Instr.writes])
  rw [spriteBit, spriteBit, hI, hmem.2]

/-- A draw that leaves the value of `VF` leaves every register, and one at other registers than `VF` leaves those: either way
its coordinate registers hold what they held (R209). -/
theorem drw_coordinates (hvf : (x ≠ vf ∧ y ≠ vf) ∨ t.reg vf = s.reg vf) : t.reg x = s.reg x ∧ t.reg y = s.reg y := by
  have hother := (drw_writesReg h).other
  rcases hvf with ⟨hx, hy⟩ | hvf
  · exact ⟨hother x hx, hother y hy⟩
  · have hall (j : Nib) : t.reg j = s.reg j := by
      by_cases hj : j = vf
      · exact hj ▸ hvf
      · exact hother j hj
    exact ⟨hall x, hall y⟩

end

/-- Settles O52: a sprite of no rows draws nothing and records no collision. -/
theorem drawEffects : Obligations.DrawEffects := by
  intro x y n s
  obtain ⟨t, ht⟩ : ∃ t, exec (.drwVxVyN x y n) s = .next t := ⟨_, rfl⟩
  have hreg := drw_writesReg ht
  refine ⟨t, ht, (exec_keeps ht).mono (by simp [Instr.writes]), hreg.other, ?_, ?_, ?_⟩
  · rw [hreg.same]
    cases (drawRows s (spriteX x s) (spriteY y s) n.toNat).hit with
    | false => exact .inl rfl
    | true => exact .inr rfl
  · rw [← Host.Outcome.next.inj ht, State.setDirty_dirty]
  · rintro rfl
    exact ⟨hreg.same, fun p => congrArg (fbRead · p) (drw_fb ht)⟩

/-! ### The net pixel mapping and the collision (R207, R210) -/

/-- Settles O53: the display pixel at `(spriteCol s x i, spriteLine s y r)` lies `i` columns and `r` rows past the first
coordinates, around the edges; any pixel fewer than `n` rows and 8 columns past them is under the sprite. -/
theorem spritePixelMapping : Obligations.SpritePixelMapping := by
  intro x y n s t h
  have hn := n.isLt
  have hX := spriteX_lt x s
  have hY := spriteY_lt y s
  have hcol (i : Nat) : spriteCol s x i = (spriteX x s + i) % 64 := rfl
  have hline (r : Nat) : spriteLine s y r = (spriteY y s + r) % 32 := rfl
  refine ⟨fun r hr i hi => ?_, fun px hpx py hpy hout => ?_⟩
  · have hi' : (spriteCol s x i + 64 - spriteX x s) % 64 = i := by rw [hcol]; omega
    have hr' : (spriteLine s y r + 32 - spriteY y s) % 32 = r := by rw [hline]; omega
    rw [drw_fb h, fbPixel_drawRows s _ (by omega) hX hY (by rw [hcol]; omega) (by rw [hline]; omega), hi', hr',
      decide_eq_true ⟨hr, hi⟩, Bool.true_and]
    rfl
  · have hmiss : ¬((py + 32 - spriteY y s) % 32 < n.toNat ∧ (px + 64 - spriteX x s) % 64 < 8) := by
      rintro ⟨hr, hi⟩
      refine hout _ hr _ hi ⟨?_, ?_⟩
      · rw [hcol]; omega
      · rw [hline]; omega
    rw [drw_fb h, fbPixel_drawRows s _ (by omega) hX hY hpx hpy, decide_eq_false hmiss, Bool.false_and, Bool.xor_false]

/-- Settles O54: the flag that DRW writes is the collision of its drawing. -/
theorem collisionFlagLaw : Obligations.CollisionFlagLaw := by
  intro x y n s t h
  rw [(drw_writesReg h).same, b2n_eq_one]
  exact hit_drawRows s n.toNat (by have := n.isLt; omega) (spriteX_lt x s) (spriteY_lt y s)

/-! ### The same sprite twice (R209) -/

/-- Settles O55: both draws have the same sprite at the same place. A pixel under the sprite is toggled by its bit twice, any
other one never; and under a bit that is 1 the first draw has inverted the pixel that the second one meets. -/
theorem spriteDrawnTwiceRestores : Obligations.SpriteDrawnTwiceRestores := by
  intro x y n s t u hvf hfirst hsecond
  obtain ⟨hx, hy⟩ := drw_coordinates hfirst hvf
  have hbit := drw_spriteBit hfirst
  have hcol (i : Nat) : spriteCol t x i = spriteCol s x i := by rw [spriteCol, spriteCol, hx]
  have hline (r : Nat) : spriteLine t y r = spriteLine s y r := by rw [spriteLine, spriteLine, hy]
  obtain ⟨hunder, houtside⟩ := spritePixelMapping x y n s t hfirst
  obtain ⟨hunder', houtside'⟩ := spritePixelMapping x y n t u hsecond
  have hflag := collisionFlagLaw x y n t u hsecond
  simp only [hbit, hcol, hline] at hunder' houtside' hflag
  refine ⟨fun p hp => fb_ext_pixel (fun px hpx py hpy => ?_) hp, hflag.trans ?_⟩
  · by_cases hsprite : ∃ r < n.toNat, ∃ i < 8, px = spriteCol s x i ∧ py = spriteLine s y r
    · obtain ⟨r, hr, i, hi, rfl, rfl⟩ := hsprite
      rw [hunder' r hr i hi, hunder r hr i hi, Bool.xor_assoc, Bool.xor_self, Bool.xor_false]
    · have hout : ∀ r < n.toNat, ∀ i < 8, ¬(px = spriteCol s x i ∧ py = spriteLine s y r) :=
        fun r hr i hi hpix => hsprite ⟨r, hr, i, hi, hpix⟩
      rw [houtside' px hpx py hpy hout, houtside px hpx py hpy hout]
  · refine exists_congr fun r => and_congr_right fun hr => exists_congr fun i => and_congr_right fun hi =>
      and_congr_right fun hone => ?_
    rw [hunder r hr i hi, hone, Bool.xor_true, Bool.not_eq_true']

end Sys2Proof
end

section
/-! PROOFS. The statements of spec/44_timers_keys.md. A wait-for-key cycle with an empty latch is one step to the same
state with `wait` set and the timers ticked, so it can be repeated for as long as no key comes; the first cycle that finds a
key takes it and goes on. -/

namespace Sys2Proof

open Sys2Proof.Machine

/-! ### Keys (R220, R221, R223) -/

/-- The number of a non-zero latch's highest key (R223). -/
theorem highestKey_spec {m : Word} (h : m ≠ 0) : (highestKey m).toNat < 16 ∧ m.getLsbD (highestKey m).toNat = true ∧
    ∀ k, (highestKey m).toNat < k → k < 16 → m.getLsbD k = false := by
  have hkey := exists_key m h
  rw [highestKey_toNat m hkey]
  exact highestBelow_spec m 16 hkey

/-- Settles O59: the search for the highest key goes down from bit 15. -/
theorem highestKeyIsLargestSetBit : Obligations.HighestKeyIsLargestSetBit :=
  ⟨fun _ => highestKey_spec, by decide, by decide, by decide⟩

/-- `pc` after a skip, from the state that the instruction runs on (R129). -/
theorem skipIf_bool_pc_toNat (s : State) (c : Bool) :
    (s.skipIf c).pc.toNat = if c then (s.pc.toNat + 2) % 65536 else s.pc.toNat := by
  cases c
  · rfl
  · exact BitVec.toNat_add s.pc 2

/-- The key that SKP and SKNP test, in numbers (R220, decision D12). -/
theorem keySet_eq_getLsbD_mod (x : Nib) (s : State) : keySet x s = s.keys.getLsbD ((s.reg x).toNat % 16) := by
  rw [keySet_eq, lowNibble_toNat]

/-- Settles O56: the two are skips on the same key test and on its negation. -/
theorem keySkips : Obligations.KeySkips := by
  intro x s
  rw [← keySet_eq_getLsbD_mod]
  refine ⟨completes_of_exec rfl (skipIf_bool_pc_toNat s _), completes_of_exec rfl ((skipIf_bool_pc_toNat s _).trans ?_)⟩
  cases keySet x s <;> rfl

/-! ### Timers (R222, R225, R226) -/

/-- Settles O57: the tick of the cycle comes after the transfer, so the register holds the timer before it. -/
theorem timerTransfers : Obligations.TimerTransfers := by
  refine fun x s => ⟨completes_of_setReg rfl, completes_of_exec rfl rfl, completes_of_exec rfl rfl, ?_⟩
  rintro t ⟨hf, hs⟩
  obtain ⟨u, hu, rfl⟩ := step_cases_of_fetched hf hs
  obtain rfl := Host.Outcome.next.inj hu
  exact ⟨State.reg_setReg_same _ x s.DT, countDown_toNat s.DT⟩

/-! ### Wait for a key (R224, R227) -/

/-- A step back of `pc` wraps (R224). -/
theorem word_sub_two_toNat (v : Word) : (v - 2).toNat = (v.toNat + 65536 - 2) % 65536 := by
  have htwo : (2 : Word).toNat = 2 := rfl
  rw [BitVec.toNat_sub, htwo]
  omega

/-- Settles O58: the two cases of LD Vx,K. -/
theorem waitForKey : Obligations.WaitForKey := by
  intro x s
  split
  · rename_i hempty
    exact ⟨_, execLdVxK_stalls x hempty, (keeps_setPc s _).trans (keeps_setWait _ true),
      word_sub_two_toNat s.pc, rfl⟩
  · rename_i hkey
    have hreg : WritesReg x (highestKey s.keys) s (s.setReg x (highestKey s.keys)) := (s.reg_setReg x · _)
    have hlt : ((s.setReg x (highestKey s.keys)).reg x).toNat < 16 := by
      rw [hreg.same]
      exact (highestKey_spec hkey).1
    exact ⟨_, execLdVxK_takes x hkey,
      ((keeps_setReg s x _).trans (keeps_setKeys _ 0)).trans (keeps_setWait _ false), hreg, hlt, rfl, rfl⟩

/-- The cycle of a wait-for-key with an empty latch: the step back cancels the advance of `pc`. -/
theorem step_of_stall {x : Nib} {s : State} (hf : Fetches s (.ldVxK x)) (hempty : s.keys = 0) :
    step s = .next (s.setWait true).tick := by
  have hback : (s.setPc (s.pc + 2)).setPc (s.pc + 2 - 2) = s := congrArg s.setPc (BitVec.add_sub_cancel s.pc 2)
  have hstalls : execLdVxK x (s.setPc (s.pc + 2)) = .next (s.setWait true) := by
    rw [execLdVxK_stalls (s := s.setPc (s.pc + 2)) x hempty, State.setPc_pc, hback]
  exact step_of_fetched hf hstalls

/-- What `n` cycles of a stall that began in `s` have done in `t`: `wait` is set, the timers have run down, and nothing else is
changed (R227, decision D13). -/
structure StalledFor (n : Nat) (s t : State) : Prop where
  frame : Keeps [.DT, .ST, .wait] s t
  waits : t.wait = true
  DT : t.DT.toNat = s.DT.toNat - n
  ST : t.ST.toNat = s.ST.toNat - n

theorem stalledFor_one (s : State) : StalledFor 1 s (s.setWait true).tick where
  frame := ((keeps_setWait s true).trans (keeps_tick _)).mono (by simp)
  waits := rfl
  DT := countDown_toNat s.DT
  ST := countDown_toNat s.ST

theorem StalledFor.trans {m n : Nat} {s t u : State} (h : StalledFor m s t) (g : StalledFor n t u) :
    StalledFor (m + n) s u where
  frame := (h.frame.trans g.frame).mono (by simp)
  waits := g.waits
  DT := by rw [g.DT, h.DT, Nat.sub_sub]
  ST := by rw [g.ST, h.ST, Nat.sub_sub]

/-- A stall goes on for any number of cycles, by induction on those after the first: that one leaves the latch and the
instruction, so the others find the machine as it did. -/
theorem core_run_of_stall {x : Nib} (k : Nat) {s : State} (hf : Fetches s (.ldVxK x)) (hempty : s.keys = 0) :
    ∃ t, Host.Core.run core (k + 1) s = .next t ∧ StalledFor (k + 1) s t := by
  induction k generalizing s with
  | zero => exact ⟨_, core_run_succ 0 (step_of_stall hf hempty), stalledFor_one s⟩
  | succ k ih =>
    obtain ⟨t, hrun, hstalled⟩ := ih (s := (s.setWait true).tick) hf hempty
    exact ⟨t, (core_run_succ (k + 1) (step_of_stall hf hempty)).trans hrun,
      Nat.add_comm 1 (k + 1) ▸ (stalledFor_one s).trans hstalled⟩

/-- Settles O28: the run of a stall, part by part. -/
theorem stallLastsWhileNoKey : Obligations.StallLastsWhileNoKey := by
  intro s k hempty ⟨x, hf⟩
  obtain ⟨t, hrun, hframe, hwait, hDT, hST⟩ := core_run_of_stall k hf hempty
  exact ⟨t, hrun, hframe, hwait, hDT, hST⟩

/-- Settles O29: the host's write leaves the word at `pc`, so the next cycle runs the instruction on a latch that is not
empty. -/
theorem keyEndsTheStall : Obligations.KeyEndsTheStall := by
  intro s x k hf hk
  have htakes : exec (.ldVxK x) ((s.setKeys k).setPc (s.pc + 2)) = .next _ := execLdVxK_takes x hk
  exact ⟨s.setKeys k, _, rfl, step_of_fetched (s := s.setKeys k) hf htakes,
    (((s.setKeys k).setPc (s.pc + 2)).reg_setReg x · _), rfl, rfl, rfl⟩

end Sys2Proof
end

section
/-! PROOFS. The statements of spec/60_exceptions.md: no instruction faults, so every cycle has a next state; what the tick at
the end of a cycle finds in the timers; and the canonical form of memory along every run with its host moves. -/

namespace Sys2Proof

open Sys2Proof.Machine

/-! ### Completion (R240) -/

/-- Every instruction answers a next state; RET, CALL and LD Vx,K, the three that look at the state first, do so in both of
their cases. -/
theorem exec_completes (i : Instr) (s : State) : ∃ u, exec i s = .next u := by
  cases i with
  | ret =>
    rcases s.pop_cases with ⟨_, hempty⟩ | ⟨_, hk, _⟩
    · exact ⟨_, execRet_empty hempty⟩
    · exact ⟨_, execRet_pops hk⟩
  | call nnn =>
    rcases s.push_cases s.pc with ⟨_, hfull⟩ | ⟨hroom, _, hk, _⟩
    · exact ⟨_, execCall_full nnn hfull⟩
    · exact ⟨_, execCall_pushes nnn hroom hk⟩
  | ldVxK x =>
    by_cases hkeys : s.keys = 0
    · exact ⟨_, execLdVxK_stalls x hkeys⟩
    · exact ⟨_, execLdVxK_takes x hkeys⟩
  | _ => exact ⟨_, rfl⟩

/-- Settles O10: a word is an instruction, which completes, or it is of no row, and then its cycle does nothing. -/
theorem everyCycleCompletes : Obligations.EveryCycleCompletes := by
  intro s
  cases hf : decodeWord (fetchWord s) with
  | ok i =>
    obtain ⟨_, hu⟩ := exec_completes i (s.setPc (s.pc + 2))
    exact ⟨_, step_of_fetched hf hu⟩
  | error r => exact ⟨_, step_of_unlisted hf⟩

/-! ### The tick at the end of the cycle (R250) -/

theorem DT_mem_writes {i : Instr} : .DT ∈ i.writes ↔ ∃ x, i = .ldDtVx x := by cases i <;> simp [Instr.writes]

theorem ST_mem_writes {i : Instr} : .ST ∈ i.writes ↔ ∃ x, i = .ldStVx x := by cases i <;> simp [Instr.writes]

/-- A cycle ends with the tick of a state in which each part but `pc` is as it was, or is written by the fetched instruction. -/
theorem step_ticks {s t : State} (h : step s = .next t) :
    ∃ u, t = u.tick ∧ ∀ p, p ≠ .pc → p.Same s u ∨ ∃ i, Fetches s i ∧ p ∈ i.writes := by
  rcases step_cases h with ⟨i, u, hf, hu, rfl⟩ | ⟨_, _, rfl⟩
  · refine ⟨u, rfl, fun p hp => ?_⟩
    by_cases hw : p ∈ i.writes
    · exact .inr ⟨i, hf, hw⟩
    · exact .inl (keeps_iff.1 ((keeps_setPc s _).trans (exec_keeps hu)) p (by simp [hp, hw]))
  · exact ⟨_, rfl, fun p hp => .inl (keeps_iff.1 (keeps_setPc s _) p (by simp [hp]))⟩

/-- Settles O12: each timer has one instruction that writes it, and the tick counts down what that instruction left. -/
theorem timersAfterCycle : Obligations.TimersAfterCycle := by
  intro s t h
  obtain ⟨u, ht, hbefore⟩ := step_ticks h
  refine ⟨?_, ?_, fun x hf => ?_, fun x hf => ?_⟩
  · rcases hbefore .DT (by decide) with (hDT : u.DT = s.DT) | ⟨i, hf, hw⟩
    · exact .inl (by rw [ht, State.tick_DT, countDown_toNat, hDT])
    · obtain ⟨x, rfl⟩ := DT_mem_writes.1 hw
      exact .inr ⟨x, hf⟩
  · rcases hbefore .ST (by decide) with (hST : u.ST = s.ST) | ⟨i, hf, hw⟩
    · exact .inl (by rw [ht, State.tick_ST, countDown_toNat, hST])
    · obtain ⟨x, rfl⟩ := ST_mem_writes.1 hw
      exact .inr ⟨x, hf⟩
  · obtain ⟨v, hv, rfl⟩ := step_cases_of_fetched hf h
    obtain rfl := Host.Outcome.next.inj hv
    exact countDown_toNat (s.reg x)
  · obtain ⟨v, hv, rfl⟩ := step_cases_of_fetched hf h
    obtain rfl := Host.Outcome.next.inj hv
    exact countDown_toNat (s.reg x)

/-! ### Reachable states (R256, R257) -/

/-- Settles O16: reset lists no cell, and every cycle and every host move keeps the form. -/
theorem reachableMemoryCanonical : Obligations.ReachableMemoryCanonical := by
  intro s h
  induction h with
  | reset => exact State.reset_mem_wf
  | cycle _ hs ih => exact step_keeps_mem_wf ih hs
  | move _ _ hm ih => exact hostMove_keeps_mem_wf ih hm

end Sys2Proof
end

section
/-! PROOFS. The statement of spec/70_reset_and_hazards.md: where the host's load puts its bytes and its words. A load of words is
the load of their bytes (`bytesOfWords`), so both forms rest on the one law of `hostLoad`. -/

namespace Sys2Proof

open Sys2Proof.Machine

/-! ### The host's load (R274) -/

theorem keeps_loadBytes (s : State) (off : Nat) (bytes : List Byte) : Keeps [.mem] s (s.loadBytes off bytes) := by
  induction bytes generalizing s off with
  | nil => exact .refl _ s
  | cons b rest ih => exact ((keeps_memWrite s off b).trans (ih _ _)).mono (by simp)

/-- A load that does not fit is outside the spec (decision D22). -/
theorem hostLoad_refused {off : Nat} {bytes : List Byte} (hfit : ¬off + bytes.length ≤ 4096) (s : State) :
    hostLoad off bytes s = .refused .programDoesNotFit :=
  if_neg hfit

/-- No address below 4096 wraps in a load that fits, so each byte lands at its own address and is not overwritten. -/
theorem hostLoad_fits {off : Nat} {bytes : List Byte} (hfit : off + bytes.length ≤ 4096) {s : State} (hm : s.mem.wf) :
    ∃ t, hostLoad off bytes s = .next t ∧ Keeps [.mem] s t ∧
      (∀ i < bytes.length, t.memRead (off + i) = bytes.getD i 0) ∧
      (∀ a < 4096, a < off ∨ off + bytes.length ≤ a → t.memRead a = s.memRead a) := by
  refine ⟨_, if_pos hfit, keeps_loadBytes s off bytes, fun i hi => ?_, fun a ha hout => ?_⟩
  · exact State.memRead_loadBytes_at s off i bytes hm hfit hi
  · exact State.memRead_loadBytes_other s off a bytes hm fun j hj => by omega

/-- Settles O60: bytes `2 * i` and `2 * i + 1` of the loaded sequence are the high and the low byte of word `i`. -/
theorem hostLoadPlacesBytes : Obligations.HostLoadPlacesBytes := by
  refine ⟨fun s off bytes hm => ?_, fun s off words hm => ?_⟩
  · split
    · next hfit => exact hostLoad_fits hfit hm
    · next hfit => exact hostLoad_refused hfit s
  · have hlen : (bytesOfWords words).length = 2 * words.length := length_bytesOfWords words
    rw [← hlen]
    split
    · next hfit =>
      obtain ⟨t, ht, hkeeps, hat, hother⟩ := hostLoad_fits hfit hm
      refine ⟨t, ht, hkeeps, fun i hi => ⟨?_, ?_⟩, hother⟩
      · rw [hat (2 * i) (by omega), getD_bytesOfWords_even]
      · rw [Nat.add_assoc, hat (2 * i + 1) (by omega), getD_bytesOfWords_odd]
    · next hfit => exact hostLoad_refused hfit s

end Sys2Proof
end
